-- ==== Sys2Proof/Word.lean ====
section
/-! DEFINITION. The bit vectors of the Packed Cell Block (spec/00_scope.md rules R7, R8, R13). -/

namespace Sys2Proof

/-- One byte register, and every value of the 8-bit datapath (R20, R55). -/
abbrev Byte := BitVec 8

/-- The value of one cell record (R13, R23). -/
abbrev Rec := BitVec 3

/-- The 24-bit view of the three bytes (R22). -/
abbrev Span := BitVec 24

/-- A command word `CW` (R73). -/
abbrev CmdWord := BitVec 16

/-- A response word `RW` (R80). -/
abbrev RspWord := BitVec 4

end Sys2Proof
end

