-- ==== Sys2Proof/Config.lean ====
section
/-! DEFINITION. The constants of the shape (R7), the widths of the carriers (R8) and the parameters of the
environment (R9). The block itself has no parameter, and the spec leaves no value of it open (R15), so there is
no free value here. -/

namespace Sys2Proof.Config

/-- `RECORD_BITS` (R7). -/
abbrev recordBits : Nat := 3

/-- `RECORDS_PER_BLOCK` (R7). -/
abbrev recordsPerBlock : Nat := 8

/-- `BYTES_PER_BLOCK` (R7). -/
abbrev bytesPerBlock : Nat := 3

/-- `BYTE_BITS` (R7). -/
abbrev byteBits : Nat := 8

/-- `BITS_PER_BLOCK` (R7). -/
abbrev bitsPerBlock : Nat := 24

/-- `CMD_W` (R8). -/
abbrev cmdW : Nat := 16

/-- `IDX_W` (R8). -/
abbrev idxW : Nat := 5

/-- `VAL_W` (R8). -/
abbrev valW : Nat := 8

/-- `TOTAL_CELLS` and `GIDX_W`, which the spec leaves to the board and a model takes as an argument (R9, U10), with the
one constraint that R9 puts on them; `NBLOCKS` is computed from the first (R65). -/
structure HostParams where
  totalCells : Nat
  gidxW : Nat
  /-- `2^GIDX_W >= TOTAL_CELLS` (R9). -/
  fits : totalCells ≤ 2 ^ gidxW
  deriving DecidableEq, Repr

end Sys2Proof.Config
end

