-- ==== Sys2Proof/Syntax.lean ====
section
/-! DEFINITION. The abstract commands and responses (R15), and the names that go with them. -/

namespace Sys2Proof

/-- The three flags of a cell record (R24). -/
inductive Field where
  | mine
  | revealed
  | flagged
  deriving DecidableEq, Repr

/-- A command in its abstract form, which is normative (R6, R15): the index and the value are unbounded integers.
One constructor per row of the opcode map (R75), in the map's order. -/
inductive Instr where
  /-- `GET idx` (R97). -/
  | get (idx : Int)
  /-- `SET idx, val` (R101). -/
  | set (idx : Int) (val : Int)
  /-- `IS_MINE idx` (R112). -/
  | isMine (idx : Int)
  /-- `SET_MINE idx, b` (R115). -/
  | setMine (idx : Int) (b : Bool)
  /-- `IS_REVEALED idx` (R113). -/
  | isRevealed (idx : Int)
  /-- `SET_REVEALED idx, b` (R116). -/
  | setRevealed (idx : Int) (b : Bool)
  /-- `IS_FLAGGED idx` (R114). -/
  | isFlagged (idx : Int)
  /-- `SET_FLAGGED idx, b` (R117). -/
  | setFlagged (idx : Int) (b : Bool)
  deriving DecidableEq, Repr

/-- The index operand, which every command has (R70). -/
def Instr.idx : Instr → Int
  | .get idx => idx
  | .set idx _ => idx
  | .isMine idx => idx
  | .setMine idx _ => idx
  | .isRevealed idx => idx
  | .setRevealed idx _ => idx
  | .isFlagged idx => idx
  | .setFlagged idx _ => idx

/-- What a response is read against (R82): a record read, a field read or a write. -/
inductive CmdKind where
  | recordRead
  | fieldRead
  | write
  deriving DecidableEq, Repr

/-- A response in its abstract form (R15). -/
inductive Response where
  /-- `Ok(rec)`, the answer of GET. -/
  | okRec (r : Rec)
  /-- `Ok(flag)`, the answer of a field read. -/
  | okFlag (flag : Bool)
  /-- `Ok()`, the answer of a write. -/
  | okUnit
  /-- `Err(OutOfRange)`, of any command. -/
  | errOutOfRange
  deriving DecidableEq, Repr

/-- One row of the opcode map (R74, R75): the selector and direction bits of `op`, and the match and mask that
select the row. -/
structure OpRow where
  mnemonic : String
  sel : BitVec 2
  write : Bool
  matchBits : CmdWord
  mask : CmdWord
  deriving DecidableEq, Repr

end Sys2Proof
end

