-- ==== Sys2Proof/WellFormed.lean ====
section
/-! DEFINITION. Which abstract commands have a command word (R85, R88): the index fits the 5-bit signed field and
the value of SET fits the 8-bit unsigned field. A command that is not well-formed still has its abstract meaning
(R85); it only has no word. -/

namespace Sys2Proof

/-- The index is in `-16..15` (R76). -/
def indexFits (idx : Int) : Bool :=
  decide (-(2 ^ (Config.idxW - 1)) ≤ idx) && decide (idx < 2 ^ (Config.idxW - 1))

/-- The value is in `0..255` (R77). -/
def valueFits (val : Int) : Bool :=
  decide (0 ≤ val) && decide (val < 2 ^ Config.valW)

/-- The value operand, where the command has an integer one, fits its field. -/
def Instr.valueOk : Instr → Bool
  | .set _ val => valueFits val
  | .get _ => true
  | .isMine _ => true
  | .setMine _ _ => true
  | .isRevealed _ => true
  | .setRevealed _ _ => true
  | .isFlagged _ => true
  | .setFlagged _ _ => true

/-- The command has a command word (R85). -/
def Instr.wf (i : Instr) : Bool := indexFits i.idx && i.valueOk

end Sys2Proof
end

