-- ==== Sys2Proof/Decode.lean ====
section
/-! DEFINITION. The decoder and the encoder of command words (R73 to R79, R83 to R88) and of response words (R80 to
R82). Decoding a command word is total: all eight operations are assigned and unused operand bits are ignored
(R84). What is not a 16-bit word is rejected by name. -/

namespace Sys2Proof

/-! ## The fields of a command word -/

/-- `sext_5(CW[12:8])` (R76). -/
def indexOperand (cw : CmdWord) : Int := (cw.extractLsb' 8 5).toInt

/-- `zext_8(CW[7:0])` (R77). -/
def valueOperand (cw : CmdWord) : Int := ((cw.extractLsb' 0 8).toNat : Int)

/-- `i2b(CW[0])`; bits 7 to 1 are ignored (R78). -/
def boolOperand (cw : CmdWord) : Bool := cw.getLsbD 0

/-! ## The decoder -/

/-- `decode(CW)` (R83), by the three bits of `op`: CW[15], CW[14], CW[13]. -/
def decode (cw : CmdWord) : Instr :=
  match cw.getLsbD 15, cw.getLsbD 14, cw.getLsbD 13 with
  | false, false, false => .get (indexOperand cw)
  | false, false, true => .set (indexOperand cw) (valueOperand cw)
  | false, true, false => .isMine (indexOperand cw)
  | false, true, true => .setMine (indexOperand cw) (boolOperand cw)
  | true, false, false => .isRevealed (indexOperand cw)
  | true, false, true => .setRevealed (indexOperand cw) (boolOperand cw)
  | true, true, false => .isFlagged (indexOperand cw)
  | true, true, true => .setFlagged (indexOperand cw) (boolOperand cw)

/-- Why bits are no command word (R86: there is one 16-bit format and no other length). -/
inductive DecodeError where
  /-- More bits than the one format has. -/
  | tooWide (nbits : Nat)
  /-- The number does not fit the bits it is said to have. -/
  | overflow (nbits w : Nat)
  deriving DecidableEq, Repr

/-- The instruction of the `nbits` low bits `w`, the bits above them zero up to 16. -/
def decodeBits (nbits w : Nat) : Except DecodeError Instr :=
  if Config.cmdW < nbits then .error (.tooWide nbits)
  else if 2 ^ nbits ≤ w then .error (.overflow nbits w)
  else .ok (decode (BitVec.ofNat 16 w))

/-- The decoder on a word numbered as the opcode table numbers its bits. A command word is one 16-bit word with no
byte layout (it is carried on a port, R71), so the table's number is the word itself. -/
def decodeTableWord (nbits w : Nat) : Option Instr :=
  match decodeBits nbits w with
  | .ok i => some i
  | .error _ => none

/-! ## The opcode map as a table -/

/-- The row of the opcode map (R75) that an instruction stands for. -/
def opRow : Instr → OpRow
  | .get _ => ⟨"GET", 0, false, 0x0000, 0xE000⟩
  | .set _ _ => ⟨"SET", 0, true, 0x2000, 0xE000⟩
  | .isMine _ => ⟨"IS_MINE", 1, false, 0x4000, 0xE000⟩
  | .setMine _ _ => ⟨"SET_MINE", 1, true, 0x6000, 0xE000⟩
  | .isRevealed _ => ⟨"IS_REVEALED", 2, false, 0x8000, 0xE000⟩
  | .setRevealed _ _ => ⟨"SET_REVEALED", 2, true, 0xA000, 0xE000⟩
  | .isFlagged _ => ⟨"IS_FLAGGED", 3, false, 0xC000, 0xE000⟩
  | .setFlagged _ _ => ⟨"SET_FLAGGED", 3, true, 0xE000, 0xE000⟩

/-- The eight rows of the opcode map, in its order. -/
def opTable : List OpRow :=
  [opRow (.get 0), opRow (.set 0 0), opRow (.isMine 0), opRow (.setMine 0 false),
   opRow (.isRevealed 0), opRow (.setRevealed 0 false), opRow (.isFlagged 0), opRow (.setFlagged 0 false)]

/-- `(CW AND mask) = match` (R75). -/
def OpRow.selects (r : OpRow) (cw : CmdWord) : Bool := decide (cw &&& r.mask = r.matchBits)

/-! ## The encoder -/

/-- The word `{op, idx mod 32 as 5 bits, val}` (R73, R85). -/
def commandWord (op : BitVec 3) (idx : Int) (val : BitVec 8) : CmdWord :=
  (op.setWidth 16 <<< 13) ||| ((BitVec.ofInt 5 idx).setWidth 16 <<< 8) ||| val.setWidth 16

/-- The Boolean operand in the value field, `{0b0000000, b2i(b)}` (R85). -/
def boolField (b : Bool) : BitVec 8 := (BitVec.ofBool b).setWidth 8

/-- The canonical word of a well-formed instruction (R85); ignored bits are zero (R79). -/
def encodeWord : Instr → CmdWord
  | .get idx => commandWord 0b000 idx 0
  | .set idx val => commandWord 0b001 idx (BitVec.ofInt 8 val)
  | .isMine idx => commandWord 0b010 idx 0
  | .setMine idx b => commandWord 0b011 idx (boolField b)
  | .isRevealed idx => commandWord 0b100 idx 0
  | .setRevealed idx b => commandWord 0b101 idx (boolField b)
  | .isFlagged idx => commandWord 0b110 idx 0
  | .setFlagged idx b => commandWord 0b111 idx (boolField b)

/-- Why an abstract command has no command word (R85, R88, U7). -/
inductive EncodeError where
  /-- The index is outside `-16..15`. -/
  | indexUnencodable
  /-- The value of SET is outside `0..255`. -/
  | valueUnencodable
  deriving DecidableEq, Repr

/-- `encode` (R85): partial, since an index that does not fit the field is not wrapped into it (U7). It is what
the assembler emits and what it rejects (R88). -/
def encode (i : Instr) : Except EncodeError CmdWord :=
  if indexFits i.idx then
    if i.valueOk then .ok (encodeWord i) else .error .valueUnencodable
  else .error .indexUnencodable

/-! ## Response words -/

/-- The response word (R80, R81): `err` in bit 3, `data` in bits 2 to 0, `data = 0` where there is no value (D9). -/
def encodeRsp : Response → RspWord
  | .okRec r => r.setWidth 4
  | .okFlag flag => (BitVec.ofBool flag).setWidth 4
  | .okUnit => 0x0
  | .errOutOfRange => 0x8

/-- The kind of a command, against which its response word is read (R82). -/
def Instr.kind : Instr → CmdKind
  | .get _ => .recordRead
  | .set _ _ => .write
  | .isMine _ => .fieldRead
  | .setMine _ _ => .write
  | .isRevealed _ => .fieldRead
  | .setRevealed _ _ => .write
  | .isFlagged _ => .fieldRead
  | .setFlagged _ _ => .write

/-- `decode_rsp(cmd_kind, RW)` (R82). -/
def decodeRsp (k : CmdKind) (rw : RspWord) : Response :=
  if rw.getLsbD 3 then .errOutOfRange
  else match k with
    | .recordRead => .okRec (rw.extractLsb' 0 3)
    | .fieldRead => .okFlag (rw.getLsbD 0)
    | .write => .okUnit

end Sys2Proof
end

