-- ==== Sys2Proof/Machine/State.lean ====
section
/-! DEFINITION. The state of one block with its ports and the record of its run, the reasons a step can stop, and the
state after reset. -/

namespace Sys2Proof.Machine

/-- The Packed Cell Block's three byte registers, which are its complete state (R20, R21). Every one of the 2^24
values is legal (R25). -/
structure Block where
  b0 : Byte
  b1 : Byte
  b2 : Byte
  deriving DecidableEq, Repr

/-- One sample of the input ports `rst`, `cmd_valid`, `cmd` (R71). -/
structure PortIn where
  rst : Bool
  cmdValid : Bool
  cmd : CmdWord
  deriving DecidableEq, Repr

/-- What a sample of the input ports is (R72). -/
inductive Event where
  /-- Neither input is asserted: no event. -/
  | idle
  /-- A reset event (R155). -/
  | reset
  /-- A command event with its word. -/
  | command (cw : CmdWord)
  /-- Both at once, which the event discipline excludes (R72, R139, R158). -/
  | overlapping
  deriving DecidableEq, Repr

/-- The state. `block` is the hardware's (R21); `inputs` and `rsp` are its ports (R71); `responses` and `faulted` are
the record of the run that R166 and R16, R137 ask a model to keep OUTSIDE the block; `constructed` is the model's own
mark for R157 (log entries 1, 2, 4, 6, 7). -/
structure State where
  /-- `B[0..2]` (R20). -/
  block : Block
  /-- Whether a reset event has reached the block (R157). -/
  constructed : Bool
  /-- What the host is going to present, oldest first (R72). -/
  inputs : List PortIn
  /-- `rsp_valid` and `rsp` (R71): the word the latest event was answered with, none if it was a reset. -/
  rsp : Option RspWord
  /-- The responses of the run, oldest first (R166). -/
  responses : List Response
  /-- The "fault recorded" mark of the run (R16, R137, U9). -/
  faulted : Bool
  deriving DecidableEq, Repr

/-- Why the machine stops with a fault. -/
inductive Fault where
  /-- An access to a byte outside the byte space `{0, 1, 2}` (R36: there is no byte 3). Raised by the byte access of
  Ops.lean. Safe: no command of the block reaches it (R45, R164). -/
  | noSuchByte (k : Nat)
  deriving DecidableEq, Repr

/-- Why a step gets no meaning. -/
inductive Refusal where
  /-- An instruction whose meaning is not written; raised by no arm of this model. Safe. -/
  | notModelled (mnemonic : String)
  /-- A reset and a command presented at once (R72, R139, R158, U2, U3). Raised by Events.lean. Safe: the spec tells a
  model to refuse it. -/
  | overlappingEvents
  /-- A command presented before the first reset (R157, U4). Raised by Events.lean. Safe: the spec tells a model to
  refuse it. -/
  | beforeFirstReset
  /-- An event routed to a block that the host's array does not have (R65). Raised by Board.lean. Safe. -/
  | noSuchBlock (k : Nat)
  /-- A global index at or past TOTAL_CELLS (U11). Raised by Board.lean. Safe: the spec tells a model to refuse it. -/
  | noSuchCell (g : Nat)
  deriving DecidableEq, Repr

/-- The answer of one step. -/
abbrev Result := Host.Outcome State Fault Refusal

/-- The state right after the reset event (R31, R155, R159): three zero bytes, no command in flight, no fault
recorded. -/
def State.reset : State where
  block := ⟨0x00, 0x00, 0x00⟩
  constructed := true
  inputs := []
  rsp := none
  responses := []
  faulted := false

end Sys2Proof.Machine
end

