-- ==== Sys2Proof/Machine/Ops.lean ====
section
/-! DEFINITION. The named operations over the block and the state: the byte space and the 24-bit view (R20, R22, R23,
R35, R36), giving a response (R72, R80), taking OutOfRange (R130 to R140), and reset (R155). There is no return from an
exception to define: nothing was saved (R141). -/

namespace Sys2Proof.Machine

/-! ## The byte space (R36) -/

/-- `B[k]` (R12); outside `{0, 1, 2}` there is no byte (R36). -/
def Block.readByte (b : Block) (k : Nat) : Except Fault Byte :=
  match k with
  | 0 => .ok b.b0
  | 1 => .ok b.b1
  | 2 => .ok b.b2
  | _ => .error (.noSuchByte k)

/-- `B[k] <- v` (R12). -/
def Block.writeByte (b : Block) (k : Nat) (v : Byte) : Except Fault Block :=
  match k with
  | 0 => .ok { b with b0 := v }
  | 1 => .ok { b with b1 := v }
  | 2 => .ok { b with b2 := v }
  | _ => .error (.noSuchByte k)

/-! ## The bit space and the record space (R22, R23, R35) -/

/-- The 24-bit view `W = B[0] + 256*B[1] + 65536*B[2]` (R22, R37); the three parts have no bit in common. -/
def Block.span (b : Block) : Span :=
  b.b0.setWidth 24 ||| (b.b1.setWidth 24 <<< 8) ||| (b.b2.setWidth 24 <<< 16)

/-- The block whose 24-bit view is the given one (R22, U13). -/
def Block.ofSpan (w : Span) : Block :=
  ⟨w.extractLsb' 0 8, w.extractLsb' 8 8, w.extractLsb' 16 8⟩

/-- `rec(i) = W[3i+2 : 3i]` (R23). -/
def Block.record (b : Block) (i : Fin 8) : Rec := b.span.extractLsb' (3 * i.val) 3

/-! ## Responses (R72, R80) -/

/-- End the command with a response: the word stands on the `rsp` port and the response joins the run's list. -/
def State.respond (s : State) (r : Response) : State :=
  { s with rsp := some (encodeRsp r), responses := s.responses ++ [r] }

/-- End a reading command: nothing but the response changes. -/
def answer (s : State) (r : Except Fault Response) : Result :=
  match r with
  | .ok r => .next (s.respond r)
  | .error f => .fault f

/-- End a writing command: the bytes are the new ones and the response is `Ok()` (R81). -/
def commit (s : State) (b : Except Fault Block) : Result :=
  match b with
  | .ok b => .next ({ s with block := b }.respond .okUnit)
  | .error f => .fault f

/-! ## Taking OutOfRange (R130 to R140) -/

/-- The state after OutOfRange was taken: the response is `Err(OutOfRange)`, nothing is saved and no byte changes (R132,
R134, R140), and the run's mark is set (R16, R137). -/
def State.outOfRange (s : State) : State := { s.respond .errOutOfRange with faulted := true }

/-- Take the exception: the command ends with `err = 1` (R140) and the block goes on to the next event (R137). -/
def raiseOutOfRange (s : State) : Result := .next s.outOfRange

/-! ## Reset (R155) -/

/-- The reset event: three zero bytes whatever they were (R155), no response (R72); the run's list and mark stay (R16:
never cleared). -/
def State.resetEvent (s : State) : State :=
  { s with block := ⟨0x00, 0x00, 0x00⟩, constructed := true, rsp := none }

/-- A block after power-up and before its first reset: the bytes are unspecified, so they are an argument (R157, U4). -/
def State.powerUp (bytes : Block) : State :=
  { block := bytes, constructed := false, inputs := [], rsp := none, responses := [], faulted := false }

end Sys2Proof.Machine
end

