-- ==== Sys2Proof/Machine/Flags.lean ====
section
/-! DEFINITION. The flags of a cell record (R24). The block has no status flag and no condition code (R26): these
three Booleans are data bits of a record. -/

namespace Sys2Proof.Machine

/-- The bit number of a flag in its record (R24, R110). -/
def fieldOffset : Field → Nat
  | .mine => 0
  | .revealed => 1
  | .flagged => 2

/-- A flag of a record value. -/
def recordFlag (r : Rec) (f : Field) : Bool := r.getLsbD (fieldOffset f)

/-- The packed value `flagged*4 + revealed*2 + is_mine*1` (R24). -/
def packFlags (mine revealed flagged : Bool) : Rec :=
  ((BitVec.ofBool flagged).setWidth 3 <<< 2) ||| ((BitVec.ofBool revealed).setWidth 3 <<< 1) |||
    (BitVec.ofBool mine).setWidth 3

/-- A flag of a record of the block: span bit `3i + f` (R23, R38). -/
def Block.flag (b : Block) (i : Fin 8) (f : Field) : Bool := b.span.getLsbD (3 * i.val + fieldOffset f)

end Sys2Proof.Machine
end

