-- ==== Sys2Proof/Machine/Operands.lean ====
section
/-! DEFINITION. The operands of a command: the range check on the index (R131), the masking of the value (R102), the
address decoder (R43, R46) and the mask/shift generator (R47 to R50). -/

namespace Sys2Proof.Machine

/-! ## The index operand -/

/-- The record that an index names, if it names one: `0 <= idx < 8` (R131). The index is neither clamped nor reduced
modulo 8. -/
def inRange (idx : Int) : Option (Fin 8) :=
  if h : 0 ≤ idx ∧ idx < 8 then some ⟨idx.toNat, by omega⟩ else none

/-- The range check that opens every command (R96, R111): OutOfRange, or the rest of the command on the record. -/
def checkIndex (idx : Int) (s : State) (rest : Fin 8 → Result) : Result :=
  match inRange idx with
  | none => raiseOutOfRange s
  | some i => rest i

/-! ## The value operand of SET -/

/-- `v3 = val mod 8`, the Euclidean remainder (R102). -/
def maskValue (val : Int) : Rec := BitVec.ofInt 3 val

/-! ## The address decoder -/

/-- What the record address derivation gives (R43). -/
structure RecordAddr where
  bitPosition : Nat
  byteIndex : Nat
  bitOffset : Nat
  straddle : Bool
  deriving DecidableEq, Repr

/-- `adec(i)` (R43, R44). -/
def adec (i : Fin 8) : RecordAddr where
  bitPosition := i.val * 3
  byteIndex := i.val * 3 / 8
  bitOffset := i.val * 3 % 8
  straddle := decide (i.val * 3 % 8 > 5)

/-- What the single-bit address derivation gives (R46). -/
structure BitAddr where
  bitPosition : Nat
  byteIndex : Nat
  bitOffset : Nat
  deriving DecidableEq, Repr

/-- `adec1(i, f)` (R46): never split over two bytes. -/
def adec1 (i : Fin 8) (f : Field) : BitAddr where
  bitPosition := i.val * 3 + fieldOffset f
  byteIndex := (i.val * 3 + fieldOffset f) / 8
  bitOffset := (i.val * 3 + fieldOffset f) % 8

/-! ## The mask/shift generator -/

/-- The secondary byte of a straddling record with its shift and masks (R48). -/
structure SecondaryMask where
  byteIndex : Nat
  shift : Nat
  mask : Byte
  keep : Byte
  deriving DecidableEq, Repr

/-- The masks and shifts of a record access (R49): the primary byte's, and the secondary's where there is one. -/
structure RecordMask where
  byteIndex : Nat
  shift : Nat
  mask : Byte
  keep : Byte
  secondary : Option SecondaryMask
  deriving DecidableEq, Repr

/-- `sshift`, `smask`, `skeep` (R48). -/
def secondaryMask (byteIndex bitOffset : Nat) : SecondaryMask where
  byteIndex := byteIndex + 1
  shift := 8 - bitOffset
  mask := 0b111#8 >>> (8 - bitOffset)
  keep := ~~~(0b111#8 >>> (8 - bitOffset))

/-- `msg` for a record access (R47, R48): the secondary part is formed only for a straddling record. -/
def msg (i : Fin 8) : RecordMask where
  byteIndex := (adec i).byteIndex
  shift := (adec i).bitOffset
  mask := 0b111#8 <<< (adec i).bitOffset
  keep := ~~~(0b111#8 <<< (adec i).bitOffset)
  secondary := if (adec i).straddle then some (secondaryMask (adec i).byteIndex (adec i).bitOffset) else none

/-- The mask and shift of a field access (R50). -/
structure BitMask where
  byteIndex : Nat
  shift : Nat
  mask : Byte
  keep : Byte
  deriving DecidableEq, Repr

/-- `bshift`, `bmask`, `bkeep` (R50). -/
def msg1 (i : Fin 8) (f : Field) : BitMask where
  byteIndex := (adec1 i f).byteIndex
  shift := (adec1 i f).bitOffset
  mask := 1#8 <<< (adec1 i f).bitOffset
  keep := ~~~(1#8 <<< (adec1 i f).bitOffset)

end Sys2Proof.Machine
end

