-- ==== Sys2Proof/Machine/AccessPath.lean ====
section
/-! DEFINITION. The read path and the write path (R51, R52, R53). Shifts and complements are on 8 bits: a left shift
drops the bits past bit 7 and a right shift fills with zeros (R11, R47, R55). -/

namespace Sys2Proof.Machine

/-- `extract3(i)` (R51): the record from its primary byte, and from its secondary byte where it straddles. -/
def extract3 (b : Block) (i : Fin 8) : Except Fault Rec := do
  let p ← b.readByte (msg i).byteIndex
  let primary := (p >>> (msg i).shift) &&& 0b111#8
  match (msg i).secondary with
  | none => .ok (primary.setWidth 3)
  | some m =>
    let q ← b.readByte m.byteIndex
    .ok ((primary ||| ((q <<< m.shift) &&& 0b111#8)).setWidth 3)

/-- `merge3(i, v3)` (R52): clear the record's bits in the byte or bytes that hold it, then OR in the new ones. -/
def merge3 (b : Block) (i : Fin 8) (v3 : Rec) : Except Fault Block := do
  let p ← b.readByte (msg i).byteIndex
  let b' ← b.writeByte (msg i).byteIndex ((p &&& (msg i).keep) ||| (v3.setWidth 8 <<< (msg i).shift))
  match (msg i).secondary with
  | none => .ok b'
  | some m =>
    let q ← b'.readByte m.byteIndex
    b'.writeByte m.byteIndex ((q &&& m.keep) ||| (v3.setWidth 8 >>> m.shift))

/-- `extract1(i, f)` (R53): one byte, mask 1, at the derived single-bit address (D27, C2). -/
def extract1 (b : Block) (i : Fin 8) (f : Field) : Except Fault Bool := do
  let p ← b.readByte (msg1 i f).byteIndex
  .ok ((p >>> (msg1 i f).shift) &&& 1#8 != 0#8)

/-- `merge1(i, f, b)` (R53). -/
def merge1 (b : Block) (i : Fin 8) (f : Field) (v : Bool) : Except Fault Block := do
  let p ← b.readByte (msg1 i f).byteIndex
  b.writeByte (msg1 i f).byteIndex
    ((p &&& (msg1 i f).keep) ||| ((BitVec.ofBool v).setWidth 8 <<< (msg1 i f).shift))

end Sys2Proof.Machine
end

