-- ==== Sys2Proof/Machine/FieldAccess.lean ====
section
/-! DEFINITION. The field commands (41_field_access.md): two parameterised operations and six thin wrappers, as the
source asks (R110). -/

namespace Sys2Proof.Machine

/-- `FIELD_READ(idx, f)` (R110). -/
def fieldRead (f : Field) (idx : Int) (s : State) : Result :=
  checkIndex idx s fun i => answer s ((extract1 s.block i f).map .okFlag)

/-- `FIELD_WRITE(idx, f, b)` (R110). -/
def fieldWrite (f : Field) (idx : Int) (b : Bool) (s : State) : Result :=
  checkIndex idx s fun i => commit s (merge1 s.block i f b)

/-- `IS_MINE idx` (R112). -/
def execIsMine (idx : Int) (s : State) : Result := fieldRead .mine idx s

/-- `IS_REVEALED idx` (R113). -/
def execIsRevealed (idx : Int) (s : State) : Result := fieldRead .revealed idx s

/-- `IS_FLAGGED idx` (R114). -/
def execIsFlagged (idx : Int) (s : State) : Result := fieldRead .flagged idx s

/-- `SET_MINE idx, b` (R115). -/
def execSetMine (idx : Int) (b : Bool) (s : State) : Result := fieldWrite .mine idx b s

/-- `SET_REVEALED idx, b` (R116). -/
def execSetRevealed (idx : Int) (b : Bool) (s : State) : Result := fieldWrite .revealed idx b s

/-- `SET_FLAGGED idx, b` (R117). -/
def execSetFlagged (idx : Int) (b : Bool) (s : State) : Result := fieldWrite .flagged idx b s

end Sys2Proof.Machine
end

