-- ==== Sys2Proof/Machine/RecordAccess.lean ====
section
/-! DEFINITION. The record commands (40_record_access.md). -/

namespace Sys2Proof.Machine

/-- `GET idx` (R97). -/
def execGet (idx : Int) (s : State) : Result :=
  checkIndex idx s fun i => answer s ((extract3 s.block i).map .okRec)

/-- `SET idx, val` (R101). -/
def execSet (idx val : Int) (s : State) : Result :=
  checkIndex idx s fun i => commit s (merge3 s.block i (maskValue val))

end Sys2Proof.Machine
end

