-- ==== Sys2Proof/Machine/Dispatch.lean ====
section
/-! DEFINITION. The block's step function on a command, `step : State x Command -> State x Response` (R15). -/

namespace Sys2Proof.Machine

def exec (i : Instr) (s : State) : Host.Outcome State Fault Refusal :=
  match i with
  | .get idx => Sys2Proof.Machine.execGet idx s
  | .set idx val => Sys2Proof.Machine.execSet idx val s
  | .isMine idx => Sys2Proof.Machine.execIsMine idx s
  | .setMine idx b => Sys2Proof.Machine.execSetMine idx b s
  | .isRevealed idx => Sys2Proof.Machine.execIsRevealed idx s
  | .setRevealed idx b => Sys2Proof.Machine.execSetRevealed idx b s
  | .isFlagged idx => Sys2Proof.Machine.execIsFlagged idx s
  | .setFlagged idx b => Sys2Proof.Machine.execSetFlagged idx b s

end Sys2Proof.Machine
end

