-- ==== Sys2Proof/Machine/Events.lean ====
section
/-! DEFINITION. The event discipline on the ports (R72, R155 to R158): which event a sample of the input ports is, how
the block serves it, and how the host's next sample reaches the block. -/

namespace Sys2Proof.Machine

/-- The event that a sample of `rst`, `cmd_valid`, `cmd` is (R71, R72). -/
def portEvent (p : PortIn) : Event :=
  match p.rst, p.cmdValid with
  | false, false => .idle
  | true, false => .reset
  | false, true => .command p.cmd
  | true, true => .overlapping

/-- The sample that presents a command word. -/
def presentWord (cw : CmdWord) : PortIn := ⟨false, true, cw⟩

/-- The sample that presents a reset event. -/
def presentReset : PortIn := ⟨true, false, 0⟩

/-- A command in its abstract form (R15), refused before the first reset (R157). -/
def serveInstr (i : Instr) (s : State) : Result :=
  if s.constructed then exec i s else .refused .beforeFirstReset

/-- A command event: `step(state, decode(CW))` (R83). -/
def serveCommand (cw : CmdWord) (s : State) : Result := serveInstr (decode cw) s

/-- One event. With none, the block holds its bytes (R32, R149); events that coincide have no meaning (R72, R139). -/
def serve (p : PortIn) (s : State) : Result :=
  match portEvent p with
  | .idle => .next s
  | .reset => .next s.resetEvent
  | .command cw => serveCommand cw s
  | .overlapping => .refused .overlappingEvents

/-- Take the host's next sample and serve it; with nothing more to come the run is over and the state stays (R166). -/
def serveNext (s : State) : Result :=
  match s.inputs with
  | [] => .next s
  | p :: rest => serve p { s with inputs := rest }

/-- Place a command word where the block takes its next event: as the next sample, on a block that has been reset. -/
def presentNext (s : State) (cw : CmdWord) : State :=
  { s with constructed := true, inputs := presentWord cw :: s.inputs }

end Sys2Proof.Machine
end

