-- ==== Sys2Proof/Machine/Step.lean ====
section
/-! DEFINITION. One step of the machine: the host's next event, served whole (R58, R72). -/

namespace Sys2Proof.Machine

/-- One step. -/
def step (s : State) : Host.Outcome State Fault Refusal := serveNext s

/-- `s` with the instruction of bits `w` (the bits above `nbits` zero) presented as the next event. -/
def State.withFetchWord (s : State) (nbits w : Nat) : State := presentNext s (BitVec.ofNat 16 (w % 2 ^ nbits))

end Sys2Proof.Machine
end

