-- ==== Sys2Proof/Machine/Assembler.lean ====
section
/-! DEFINITION. The host's notation for events (R87) and what the assembler emits for it (R88). Notation only: the
block never sees text. A line is a list of characters. -/

namespace Sys2Proof.Machine

/-- The event a line names. -/
inductive AsmEvent where
  | reset
  | command (i : Instr)
  deriving DecidableEq, Repr

/-- A line: the block its `@k:` prefix names, if it has one, and its event. -/
structure AsmLine where
  block : Option Nat
  event : AsmEvent
  deriving DecidableEq, Repr

/-- Why a line is rejected. -/
inductive AsmError where
  | badBlockPrefix
  | badMnemonic
  | badOperands
  /-- R88: the operands have no command word. -/
  | unencodable (e : EncodeError)
  deriving DecidableEq, Repr

/-- Characters that separate words (log entry 15). -/
def isBlank (c : Char) : Bool := c == ' ' || c == '\t'

/-- Without the blanks at both ends. -/
def trimBlanks (cs : List Char) : List Char :=
  ((cs.dropWhile isBlank).reverse.dropWhile isBlank).reverse

/-- Without the comment, which runs from `;` to the end of the line (R87). -/
def stripComment (cs : List Char) : List Char := cs.takeWhile (· != ';')

/-- The parts between commas. -/
def splitCommas : List Char → List (List Char)
  | [] => [[]]
  | c :: cs =>
    match c == ',', splitCommas cs with
    | true, parts => [] :: parts
    | false, part :: parts => (c :: part) :: parts
    | false, [] => [[c]]

/-- The value of a digit, in any base up to 16. -/
def digitValue (c : Char) : Option Nat :=
  let n := c.toNat
  if 48 ≤ n ∧ n ≤ 57 then some (n - 48)
  else if 97 ≤ n ∧ n ≤ 102 then some (n - 87)
  else if 65 ≤ n ∧ n ≤ 70 then some (n - 55)
  else none

/-- The number that the digits continue. -/
def numeralFrom (base : Nat) : Nat → List Char → Option Nat
  | acc, [] => some acc
  | acc, c :: cs =>
    match digitValue c with
    | some d => if d < base then numeralFrom base (acc * base + d) cs else none
    | none => none

/-- A number of at least one digit; leading zeros are allowed (log entry 15). -/
def numeral (base : Nat) (cs : List Char) : Option Nat :=
  if cs.isEmpty then none else numeralFrom base 0 cs

/-- `idx`: a decimal integer, possibly negative (R87); the sign is a `-` right before the digits (log entry 15). -/
def parseIndex : List Char → Option Int
  | '-' :: cs => (numeral 10 cs).map fun n => -(n : Int)
  | cs => (numeral 10 cs).map fun n => (n : Int)

/-- `val`: a non-negative integer in decimal, `0x` hexadecimal or `0b` binary (R87). -/
def parseValue : List Char → Option Int
  | '0' :: 'x' :: cs => (numeral 16 cs).map fun n => (n : Int)
  | '0' :: 'b' :: cs => (numeral 2 cs).map fun n => (n : Int)
  | cs => (numeral 10 cs).map fun n => (n : Int)

/-- `b`: `true` or `false`, or `1` or `0` (R87). -/
def parseBool (cs : List Char) : Option Bool :=
  if cs = "true".toList ∨ cs = ['1'] then some true
  else if cs = "false".toList ∨ cs = ['0'] then some false
  else none

/-- The operations a mnemonic can name, RESET among them. -/
inductive AsmOp where
  | reset
  | get
  | set
  | isField (f : Field)
  | setField (f : Field)
  deriving DecidableEq, Repr

/-- The mnemonics of R70, in capitals, and `RESET` (R87). -/
def mnemonicOp (cs : List Char) : Option AsmOp :=
  if cs = "RESET".toList then some .reset
  else if cs = "GET".toList then some .get
  else if cs = "SET".toList then some .set
  else if cs = "IS_MINE".toList then some (.isField .mine)
  else if cs = "IS_REVEALED".toList then some (.isField .revealed)
  else if cs = "IS_FLAGGED".toList then some (.isField .flagged)
  else if cs = "SET_MINE".toList then some (.setField .mine)
  else if cs = "SET_REVEALED".toList then some (.setField .revealed)
  else if cs = "SET_FLAGGED".toList then some (.setField .flagged)
  else none

/-- The field read of a field (R112 to R114). -/
def fieldReadInstr (f : Field) (idx : Int) : Instr :=
  match f with
  | .mine => .isMine idx
  | .revealed => .isRevealed idx
  | .flagged => .isFlagged idx

/-- The field write of a field (R115 to R117). -/
def fieldWriteInstr (f : Field) (idx : Int) (b : Bool) : Instr :=
  match f with
  | .mine => .setMine idx b
  | .revealed => .setRevealed idx b
  | .flagged => .setFlagged idx b

/-- The event of an operation with its operands (R87). -/
def parseOperands (op : AsmOp) (operands : List (List Char)) : Option AsmEvent :=
  match op, operands with
  | .reset, [[]] => some .reset
  | .get, [i] => (parseIndex i).map fun idx => .command (.get idx)
  | .set, [i, v] => do return .command (.set (← parseIndex i) (← parseValue v))
  | .isField f, [i] => (parseIndex i).map fun idx => .command (fieldReadInstr f idx)
  | .setField f, [i, b] => do return .command (fieldWriteInstr f (← parseIndex i) (← parseBool b))
  | _, _ => none

/-- The event of a line without prefix and comment: the mnemonic, then the operands separated by commas (R87). -/
def parseEvent (cs : List Char) : Except AsmError AsmEvent :=
  match mnemonicOp (cs.takeWhile fun c => !isBlank c) with
  | none => .error .badMnemonic
  | some op =>
    match parseOperands op ((splitCommas (cs.dropWhile fun c => !isBlank c)).map trimBlanks) with
    | none => .error .badOperands
    | some e => .ok e

/-- A line (R87); a line with nothing but a comment names no event. DESIGN CHOICE (log entry 15): R87 does not give the
notation of `k` in the `@k:` prefix; here it is decimal digits, leading zeros allowed, with no blank between `@`, `k` and
`:`. -/
def parseLine (line : List Char) : Except AsmError (Option AsmLine) :=
  match trimBlanks (stripComment line) with
  | [] => .ok none
  | '@' :: cs =>
    match numeral 10 (cs.takeWhile (· != ':')), cs.dropWhile (· != ':') with
    | some k, _ :: rest => (parseEvent (trimBlanks rest)).map fun e => some ⟨some k, e⟩
    | _, _ => .error .badBlockPrefix
  | cs => (parseEvent cs).map fun e => some ⟨none, e⟩

/-- The sample that presents an event: the canonical word of a command, rejected where it has none (R88). -/
def assembleEvent (e : AsmEvent) : Except AsmError PortIn :=
  match e with
  | .reset => .ok presentReset
  | .command i =>
    match encode i with
    | .ok cw => .ok (presentWord cw)
    | .error err => .error (.unencodable err)

/-- A line assembled: the block it goes to and the sample that presents its event. -/
def assembleLine (line : List Char) : Except AsmError (Option (Option Nat × PortIn)) :=
  match parseLine line with
  | .error e => .error e
  | .ok none => .ok none
  | .ok (some l) => (assembleEvent l.event).map fun p => some (l.block, p)

end Sys2Proof.Machine
end

