-- ==== Sys2Proof/Machine/Board.lean ====
section
/-! DEFINITION. The host's array of blocks as far as it touches a block (R4 item 9, R33, R64 to R67, R89, R147): the
mapping of a global cell index, the number of blocks, and an event routed to one block. Each block is an independent
instance of the machine of Step.lean. -/

namespace Sys2Proof.Machine

/-- `block_index = global_index div 8` (R64). -/
def blockIndex (g : Nat) : Nat := g / 8

/-- `local_index = global_index mod 8` (R64). -/
def localIndex (g : Nat) : Nat := g % 8

/-- `NBLOCKS = ceil(TOTAL_CELLS / 8) = (TOTAL_CELLS + 7) div 8` (R65). -/
def nBlocks (totalCells : Nat) : Nat := (totalCells + 7) / 8

/-- How many records of the last block no cell maps to (R66). -/
def tailRecords (totalCells : Nat) : Nat := Config.recordsPerBlock * nBlocks totalCells - totalCells

/-- The host's parameters and its NBLOCKS blocks (R9, R65), each with its own ports and run. -/
structure Board where
  params : Config.HostParams
  blocks : List State
  /-- `NBLOCKS = ceil(TOTAL_CELLS / 8)` (R9). -/
  sized : blocks.length = nBlocks params.totalCells
  deriving DecidableEq, Repr

/-- The answer of one event on the array. -/
abbrev BoardResult := Host.Outcome Board Fault Refusal

/-- Allocation (R65, R160 item 1): NBLOCKS blocks, none of them reset yet, their bytes unspecified (R157). -/
def Board.allocate (p : Config.HostParams) (bytes : Nat → Block) : Board :=
  ⟨p, (List.range (nBlocks p.totalCells)).map fun k => State.powerUp (bytes k), by simp⟩

/-- The array with block `k` in a new state. -/
def Board.setBlock (bd : Board) (k : Nat) (t : State) : Board :=
  ⟨bd.params, bd.blocks.set k t, by simp [bd.sized]⟩

/-- Send an event to block `k` and leave every other block alone (R33, R67). -/
def Board.update (bd : Board) (k : Nat) (event : State → Result) : BoardResult :=
  match bd.blocks[k]? with
  | none => .refused (.noSuchBlock k)
  | some s =>
    match event s with
    | .next t => .next (bd.setBlock k t)
    | .fault r => .fault r
    | .refused r => .refused r

/-- Present a sample on the ports of block `k` (R71: one port set per block; R87: the `@k:` prefix). -/
def Board.present (bd : Board) (k : Nat) (p : PortIn) : BoardResult := bd.update k (serve p)

/-- The same command on another record (R89). -/
def Instr.withIndex (i : Instr) (idx : Int) : Instr :=
  match i with
  | .get _ => .get idx
  | .set _ val => .set idx val
  | .isMine _ => .isMine idx
  | .setMine _ b => .setMine idx b
  | .isRevealed _ => .isRevealed idx
  | .setRevealed _ b => .setRevealed idx b
  | .isFlagged _ => .isFlagged idx
  | .setFlagged _ b => .setFlagged idx b

/-- A host-level access to global cell `g` (R89): the command sent to block `g div 8` with index `g mod 8`. A global
index at or past TOTAL_CELLS is refused (U11). -/
def Board.access (bd : Board) (g : Nat) (i : Instr) : BoardResult :=
  if g < bd.params.totalCells then
    bd.update (blockIndex g) (serveInstr (Instr.withIndex i (localIndex g)))
  else .refused (.noSuchCell g)

/-- The same access by a global index as the host carries it, GIDX_W bits wide and unsigned (R9, R64). -/
def Board.accessWord (bd : Board) (g : BitVec bd.params.gidxW) (i : Instr) : BoardResult := bd.access g.toNat i

end Sys2Proof.Machine
end

