-- ==== Sys2Proof/Safety.lean ====
section
/-! DEFINITION. What counts as a safe run (R137, R166), the invariant of the interface, and the words the statements
use. -/

namespace Sys2Proof.Machine

/-- The index names a record: `0 <= idx < 8` (R131). -/
abbrev IndexOk (idx : Int) : Prop := 0 ≤ idx ∧ idx < 8

/-- A run in which no OutOfRange occurred (R137, R166). -/
abbrev State.Safe (s : State) : Prop := s.faulted = false

/-- Byte `k` of the block as a total view; 0 stands where there is no byte. -/
def Block.byteAt (b : Block) (k : Nat) : Byte :=
  match b.readByte k with
  | .ok v => v
  | .error _ => 0

/-- The block after record `i` became `v`, by the formula on the 24-bit view (R52, R103). -/
def Block.withRecord (b : Block) (i : Fin 8) (v : Rec) : Block :=
  Block.ofSpan ((b.span &&& ~~~(0b111#24 <<< (3 * i.val))) ||| (v.setWidth 24 <<< (3 * i.val)))

/-- The block after flag `f` of record `i` became `v`, by the formula on the 24-bit view (R53, check K0). -/
def Block.withFlag (b : Block) (i : Fin 8) (f : Field) (v : Bool) : Block :=
  Block.ofSpan ((b.span &&& ~~~(1#24 <<< (3 * i.val + fieldOffset f))) |||
    ((BitVec.ofBool v).setWidth 24 <<< (3 * i.val + fieldOffset f)))

/-- The `rsp` port shows the word of the latest response (R72, R80). -/
abbrev State.PortShowsLatest (s : State) : Prop :=
  ∀ w, s.rsp = some w → ∃ r, s.responses.getLast? = some r ∧ encodeRsp r = w

/-- The mark is set exactly when an OutOfRange was answered (R16, R137). -/
abbrev State.MarkTellsErrors (s : State) : Prop :=
  s.faulted = true ↔ Response.errOutOfRange ∈ s.responses

/-- Nothing was answered before the first reset (R157). -/
abbrev State.SilentBeforeReset (s : State) : Prop :=
  s.constructed = false → s.responses = [] ∧ s.rsp = none

/-- The invariant of a block with its ports and its run. -/
def State.Inv (s : State) : Prop :=
  s.PortShowsLatest ∧ s.MarkTellsErrors ∧ s.SilentBeforeReset

/-- The value of the record whose primary byte is `p` and secondary byte is `q`, by the read formula of R97 at the given
bit offset; `q` matters only where the record straddles. -/
def readFormula (bitOffset : Nat) (p q : Byte) : Rec :=
  let r := (p >>> bitOffset) &&& 0b111#8
  (if bitOffset > 5 then r ||| ((q <<< (8 - bitOffset)) &&& 0b111#8) else r).setWidth 3

/-- The new primary byte by the write formula of R101. -/
def primaryFormula (bitOffset : Nat) (p : Byte) (v3 : Rec) : Byte :=
  (p &&& ~~~(0b111#8 <<< bitOffset)) ||| (v3.setWidth 8 <<< bitOffset)

/-- The new secondary byte by the write formula of R101. -/
def secondaryFormula (bitOffset : Nat) (q : Byte) (v3 : Rec) : Byte :=
  (q &&& ~~~(0b111#8 >>> (8 - bitOffset))) ||| (v3.setWidth 8 >>> (8 - bitOffset))

/-- The answer that OutOfRange gives, field by field (R131, R132, R134, R137). -/
def outOfRangeAnswer (s : State) : Result :=
  .next { s with rsp := some 0x8#4, responses := s.responses ++ [.errOutOfRange], faulted := true }

/-- The answer of a read that found `r` (R81). -/
def readAnswer (s : State) (r : Response) (rw : RspWord) : Result :=
  .next { s with rsp := some rw, responses := s.responses ++ [r] }

/-- The answer of a write that left the bytes `b` (R81). -/
def writeAnswer (s : State) (b : Block) : Result :=
  .next { s with block := b, rsp := some 0x0#4, responses := s.responses ++ [.okUnit] }

/-- What R112 to R114 say of a field read: its words, its answer in range by the byte it reads and by the record's
value, and its answer out of range. -/
def FieldReadRule (mk : Int → Instr) (f : Field) (matchBits : CmdWord) : Prop :=
  (∀ cw : CmdWord, cw &&& 0xE000#16 = matchBits → decode cw = mk (cw.extractLsb' 8 5).toInt) ∧
  (∀ (s : State) (i : Fin 8),
    let p := 3 * i.val + fieldOffset f
    let flag := ((s.block.byteAt (p / 8) >>> (p % 8)) &&& 1#8) != 0#8
    exec (mk i.val) s = readAnswer s (.okFlag flag) (if flag then 0x1#4 else 0x0#4) ∧
      flag = ((s.block.record i &&& (1#3 <<< fieldOffset f)) != 0#3)) ∧
  (∀ (s : State) (idx : Int), idx < 0 ∨ 7 < idx → exec (mk idx) s = outOfRangeAnswer s)

/-- What R115 to R117 say of a field write: its words, the one byte it writes in range, and its answer out of range. -/
def FieldWriteRule (mk : Int → Bool → Instr) (f : Field) (matchBits : CmdWord) : Prop :=
  (∀ cw : CmdWord, cw &&& 0xE000#16 = matchBits →
    decode cw = mk (cw.extractLsb' 8 5).toInt (cw.getLsbD 0)) ∧
  (∀ (s : State) (i : Fin 8) (v : Bool),
    let p := 3 * i.val + fieldOffset f
    ∃ b, exec (mk i.val v) s = writeAnswer s b ∧
      b.byteAt (p / 8) = ((s.block.byteAt (p / 8) &&& ~~~(1#8 <<< (p % 8))) |||
        ((BitVec.ofBool v).setWidth 8 <<< (p % 8))) ∧
      ∀ k, k ≠ p / 8 → b.readByte k = s.block.readByte k) ∧
  (∀ (s : State) (idx : Int) (v : Bool), idx < 0 ∨ 7 < idx → exec (mk idx v) s = outOfRangeAnswer s)

/-- The commands of a list one after another, each from the state the one before it left (R61). -/
def execAll : List Instr → State → Result
  | [], s => .next s
  | i :: is, s =>
    match exec i s with
    | .next t => execAll is t
    | .fault r => .fault r
    | .refused r => .refused r

/-- A run's start: the state after reset with the host's events to come (R159, R166). -/
def State.launch (events : List PortIn) : State := { State.reset with inputs := events }

/-- How many of the samples present a command. -/
def commandCount (events : List PortIn) : Nat :=
  (events.filter fun p => !p.rst && p.cmdValid).length

/-- A sample that keeps the event discipline (R72): a reset and a command are never presented at once. -/
def PortIn.disciplined (p : PortIn) : Bool := !(p.rst && p.cmdValid)

/-- A sample whose command, if it presents one, has an index in range (R131). -/
def PortIn.indexOk (p : PortIn) : Bool :=
  p.rst || !p.cmdValid || decide (IndexOk (decode p.cmd).idx)

end Sys2Proof.Machine
end

