-- ==== Sys2Proof/Certificates/Slice0/Obligations.lean ====
section
/-! DEFINITION. The statements for the provers, taken from the numbered rules of spec/. -/

open Sys2Proof Sys2Proof.Machine

/-! ## Reset -/

/-- R31, R159: what reset leaves. -/
def Obligations.ResetLeavesEveryRecordZero : Prop :=
  State.reset.block.b0 = 0x00 ∧ State.reset.block.b1 = 0x00 ∧ State.reset.block.b2 = 0x00 ∧
  State.reset.block.span = 0x000000 ∧
  (∀ i : Fin 8, State.reset.block.record i = 0) ∧
  (∀ (i : Fin 8) (f : Field), State.reset.block.flag i f = false) ∧
  State.reset.inputs = [] ∧ State.reset.faulted = false

/-- R155: the reset event zeroes the three bytes whatever they were, and is answered by no response. -/
def Obligations.ResetEventZeroesTheBlock : Prop :=
  (∀ (s : State) (rest : List PortIn), s.inputs = presentReset :: rest →
    ∃ t, step s = .next t ∧ t.block.b0 = 0x00 ∧ t.block.b1 = 0x00 ∧ t.block.b2 = 0x00 ∧
      (∀ i : Fin 8, t.block.record i = 0) ∧ (∀ (i : Fin 8) (f : Field), t.block.flag i f = false) ∧
      t.responses = s.responses) ∧
  presentReset.rst = true ∧ presentReset.cmdValid = false ∧
  assembleLine "RESET".toList = .ok (some (none, presentReset))

/-- R157: before the first reset the bytes are anything and a command has no meaning; the first reset gives the state
every run starts at. -/
def Obligations.CommandBeforeFirstResetIsRefused : Prop :=
  ∀ (bytes : Block) (cw : CmdWord) (rest : List PortIn),
    step { State.powerUp bytes with inputs := presentWord cw :: rest } = .refused .beforeFirstReset ∧
    step { State.powerUp bytes with inputs := presentReset :: rest } = .next (State.launch rest)

/-! ## The record commands -/

/-- R97: GET, its words, its result by the expanded formula, OutOfRange, the worked example. -/
def Obligations.GetReadsItsRecord : Prop :=
  (∀ cw : CmdWord, cw &&& 0xE000#16 = 0x0000#16 → decode cw = .get (cw.extractLsb' 8 5).toInt) ∧
  (∀ (s : State) (i : Fin 8),
    let p := i.val * 3
    let r := readFormula (p % 8) (s.block.byteAt (p / 8)) (s.block.byteAt (p / 8 + 1))
    exec (.get i.val) s = readAnswer s (.okRec r) (r.setWidth 4)) ∧
  (∀ (s : State) (idx : Int), idx < 0 ∨ 7 < idx → exec (.get idx) s = outOfRangeAnswer s) ∧
  (∀ s : State, s.block = ⟨0x00, 0x80, 0x07⟩ →
    exec (decode 0x0500) s = readAnswer s (.okRec 7) 0x7#4)

/-- The result law of GET (40_record_access.md section 2): the bits `3*idx` to `3*idx+2` of the span, packed as
`flagged*4 + revealed*2 + is_mine*1`, and no other bit of the state matters. -/
def Obligations.GetAnswersTheRecordAndNothingElse : Prop :=
  (∀ (s : State) (i : Fin 8), ∃ t r, exec (.get i.val) s = .next t ∧ t.responses = s.responses ++ [.okRec r] ∧
    r = s.block.span.extractLsb' (3 * i.val) 3 ∧
    r.toNat = (s.block.flag i .flagged).toNat * 4 + (s.block.flag i .revealed).toNat * 2 +
      (s.block.flag i .mine).toNat) ∧
  (∀ (s s' : State) (i : Fin 8), s.block.record i = s'.block.record i →
    ∃ r rw, exec (.get i.val) s = readAnswer s r rw ∧ exec (.get i.val) s' = readAnswer s' r rw)

/-- R101: SET, its words, the byte or bytes it writes by the expanded formulas, OutOfRange, the worked example. -/
def Obligations.SetWritesItsRecord : Prop :=
  (∀ cw : CmdWord, cw &&& 0xE000#16 = 0x2000#16 →
    decode cw = .set (cw.extractLsb' 8 5).toInt (cw.extractLsb' 0 8).toNat) ∧
  (∀ (s : State) (i : Fin 8) (val : Int),
    let p := i.val * 3
    let v3 := BitVec.ofNat 3 (val % 8).toNat
    ∃ b, exec (.set i.val val) s = writeAnswer s b ∧
      b.byteAt (p / 8) = primaryFormula (p % 8) (s.block.byteAt (p / 8)) v3 ∧
      (p % 8 > 5 → b.byteAt (p / 8 + 1) = secondaryFormula (p % 8) (s.block.byteAt (p / 8 + 1)) v3) ∧
      ∀ k, k ≠ p / 8 → ¬ (p % 8 > 5 ∧ k = p / 8 + 1) → b.readByte k = s.block.readByte k) ∧
  (∀ (s : State) (idx val : Int), idx < 0 ∨ 7 < idx → exec (.set idx val) s = outOfRangeAnswer s) ∧
  (∀ s : State, s.block = ⟨0x00, 0x00, 0x00⟩ → ∃ t, exec (decode 0x2205) s = .next t ∧
    t.block = ⟨0x40, 0x01, 0x00⟩ ∧ t.rsp = some 0x0#4 ∧ ∃ u, exec (.get 2) t = .next u ∧ u.rsp = some 0x5#4)

/-- R102, R106: SET masks its value to the low 3 bits. -/
def Obligations.SetMasksItsValue : Prop :=
  (∀ (s : State) (idx val : Int), exec (.set idx val) s = exec (.set idx (val % 8)) s) ∧
  (∀ (s : State) (idx : Int) (val : Nat), 7 < val →
    exec (.set idx val) s = exec (.set idx ((val &&& 0b111 : Nat) : Int)) s) ∧
  (∀ (s : State) (i : Fin 8) (val : Int), ∃ t, exec (.set i.val val) s = .next t ∧
    ((t.block.record i).toNat : Int) = val % 8 ∧ t.responses = s.responses ++ [.okUnit]) ∧
  (∀ (s : State) (cw : CmdWord), cw &&& 0xE000#16 = 0x2000#16 → IndexOk (decode cw).idx →
    ∃ t, exec (decode cw) s = .next t ∧
      ∀ i : Fin 8, (i.val : Int) = (decode cw).idx → t.block.record i = cw.extractLsb' 0 3)

/-- The effect of SET on the 24-bit view (40_record_access.md, "Effect of SET on the 24-bit view"). -/
def Obligations.SetRewritesOneRecordOfTheSpan : Prop :=
  ∀ (s : State) (i : Fin 8) (val : Int), ∃ t, exec (.set i.val val) s = .next t ∧
    t.block.span = (s.block.span &&& ~~~(0b111#24 <<< (3 * i.val))) |||
      (BitVec.ofNat 24 (val % 8).toNat <<< (3 * i.val)) ∧
    ∀ j, t.block.record j = if j = i then BitVec.ofNat 3 (val % 8).toNat else s.block.record j

/-- R105: the frame of SET. -/
def Obligations.SetChangesNoOtherRecord : Prop :=
  ∀ (s t : State) (i : Fin 8) (val : Int), exec (.set i.val val) s = .next t →
    (∀ p, p < 24 → (p < 3 * i.val ∨ 3 * i.val + 2 < p) → t.block.span.getLsbD p = s.block.span.getLsbD p) ∧
    (∀ k, k ≠ (adec i).byteIndex → ¬ ((adec i).straddle = true ∧ k = (adec i).byteIndex + 1) →
      t.block.readByte k = s.block.readByte k) ∧
    (∀ j : Fin 8, j ≠ i → ∃ u v, exec (.get j.val) s = .next u ∧ exec (.get j.val) t = .next v ∧ v.rsp = u.rsp ∧
      v.responses.getLast? = u.responses.getLast?)

/-- The round-trip law (40_record_access.md, "Round-trip law"), with any commands on other records, reads or writes, in
range or not, between the write and the read. -/
def Obligations.SetThenGetReturnsTheValue : Prop :=
  ∀ (s : State) (i : Fin 8) (v : Rec) (others : List Instr), (∀ c ∈ others, c.idx ≠ i.val) →
    ∃ t, execAll ((.set i.val v.toNat :: others) ++ [.get i.val]) s = .next t ∧
      t.responses.getLast? = some (.okRec v) ∧ t.rsp = some (v.setWidth 4)

/-! ## The field commands -/

/-- R112 to R114. -/
def Obligations.FieldReadsAnswerTheirBit : Prop :=
  FieldReadRule .isMine .mine 0x4000#16 ∧
  FieldReadRule .isRevealed .revealed 0x8000#16 ∧
  FieldReadRule .isFlagged .flagged 0xC000#16 ∧
  (∀ s : State, s.block = ⟨0x00, 0x80, 0x07⟩ →
    exec (decode 0x4500) s = readAnswer s (.okFlag true) 0x1#4 ∧
    exec (decode 0x8500) s = readAnswer s (.okFlag true) 0x1#4) ∧
  (∀ s : State, s.block = ⟨0x40, 0x01, 0x00⟩ →
    exec (decode 0xC200) s = readAnswer s (.okFlag true) 0x1#4)

/-- R115 to R117. -/
def Obligations.FieldWritesWriteTheirBit : Prop :=
  FieldWriteRule .setMine .mine 0x6000#16 ∧
  FieldWriteRule .setRevealed .revealed 0xA000#16 ∧
  FieldWriteRule .setFlagged .flagged 0xE000#16 ∧
  (∀ s : State, s.block = ⟨0x00, 0x00, 0x00⟩ → ∃ t, exec (decode 0x6501) s = writeAnswer s ⟨0x00, 0x80, 0x00⟩ ∧
    exec (decode 0x6501) s = .next t ∧ exec (.get 5) t = readAnswer t (.okRec 1) 0x1#4) ∧
  (∀ s : State, s.block = ⟨0x00, 0x80, 0x00⟩ → ∃ t, exec (decode 0xA501) s = writeAnswer s ⟨0x00, 0x80, 0x01⟩ ∧
    exec (decode 0xA501) s = .next t ∧ exec (.get 5) t = readAnswer t (.okRec 3) 0x3#4) ∧
  (∀ s : State, s.block = ⟨0x00, 0x80, 0x01⟩ → ∃ t, exec (decode 0xE501) s = writeAnswer s ⟨0x00, 0x80, 0x03⟩ ∧
    exec (decode 0xE501) s = .next t ∧ exec (.get 5) t = readAnswer t (.okRec 7) 0x7#4)

/-- R124: the frame of a field write. -/
def Obligations.FieldWriteChangesOneBit : Prop :=
  ∀ (s t : State) (i : Fin 8) (f : Field) (v : Bool), exec (fieldWriteInstr f i.val v) s = .next t →
    (∀ p, p < 24 → p ≠ 3 * i.val + fieldOffset f → t.block.span.getLsbD p = s.block.span.getLsbD p) ∧
    (∀ g, g ≠ f → t.block.flag i g = s.block.flag i g) ∧
    (∀ j, j ≠ i → t.block.record j = s.block.record j) ∧
    (∀ k, k ≠ (adec1 i f).byteIndex → t.block.readByte k = s.block.readByte k)

/-- The field round trip (41_field_access.md, "Field round trip"). -/
def Obligations.FieldWriteThenReadReturnsTheFlag : Prop :=
  ∀ (s : State) (i : Fin 8) (f : Field) (v : Bool), ∃ t u,
    exec (fieldWriteInstr f i.val v) s = .next t ∧ exec (fieldReadInstr f i.val) t = .next u ∧
    u.responses = t.responses ++ [.okFlag v]

/-- R125: a SET, then the three field reads, gives the decomposition. -/
def Obligations.SetThenFieldReadsDecompose : Prop :=
  ∀ (s : State) (i : Fin 8) (p : Rec), ∃ t, exec (.set i.val p.toNat) s = .next t ∧
    exec (.isMine i.val) t = readAnswer t (.okFlag (p &&& 1#3 != 0#3)) (if p &&& 1#3 != 0#3 then 1#4 else 0#4) ∧
    exec (.isRevealed i.val) t = readAnswer t (.okFlag (p &&& 2#3 != 0#3)) (if p &&& 2#3 != 0#3 then 1#4 else 0#4) ∧
    exec (.isFlagged i.val) t = readAnswer t (.okFlag (p &&& 4#3 != 0#3)) (if p &&& 4#3 != 0#3 then 1#4 else 0#4)

/-- The inverse direction (41_field_access.md, "Field accessor consistency, inverse direction"): the three field writes
in any order leave what one SET leaves; from the zero block the true flags alone suffice. -/
def Obligations.ThreeFieldWritesEqualOneSet : Prop :=
  (∀ (s : State) (i : Fin 8) (m r g : Bool) (writes : List Instr),
    writes.Perm [.setMine i.val m, .setRevealed i.val r, .setFlagged i.val g] →
    ∃ t u v, execAll writes s = .next t ∧
      exec (.set i.val (g.toNat * 4 + r.toNat * 2 + m.toNat : Nat)) s = .next u ∧ t.block = u.block ∧
      exec (.get i.val) t = .next v ∧
      v.rsp = some (BitVec.ofNat 4 (g.toNat * 4 + r.toNat * 2 + m.toNat))) ∧
  (∀ (s : State) (i : Fin 8) (m r g : Bool), s.block = ⟨0x00, 0x00, 0x00⟩ →
    ∃ t u, execAll ([(m, Field.mine), (r, .revealed), (g, .flagged)].filterMap fun x =>
        if x.1 then some (fieldWriteInstr x.2 i.val true) else none) s = .next t ∧
      exec (.set i.val (g.toNat * 4 + r.toNat * 2 + m.toNat : Nat)) s = .next u ∧ t.block = u.block)

/-- A field read is a GET and a bit test, out of range too (41_field_access.md, "A field read equals GET and a bit
test"). -/
def Obligations.FieldReadIsGetAndBitTest : Prop :=
  ∀ (s t : State) (idx : Int) (f : Field) (r : Response), exec (.get idx) s = .next t →
    t.responses = s.responses ++ [r] →
    ∃ u, exec (fieldReadInstr f idx) s = .next u ∧ u.block = t.block ∧
      u.responses = s.responses ++
        [match r with
         | .okRec v => .okFlag (v &&& (1#3 <<< fieldOffset f) != 0#3)
         | e => e]

/-- A field write is a SET of the record with one bit changed (41_field_access.md, "A field write equals a
read-modify-write of the record"). -/
def Obligations.FieldWriteIsSetOfTheChangedRecord : Prop :=
  ∀ (s : State) (i : Fin 8) (f : Field) (v : Bool),
    exec (fieldWriteInstr f i.val v) s =
      exec (.set i.val ((s.block.record i &&& ~~~(1#3 <<< fieldOffset f)) |||
        ((BitVec.ofBool v).setWidth 3 <<< fieldOffset f)).toNat) s

/-- Writes to different records or different bits commute (41_field_access.md, "Field writes to different bits
commute"). -/
def Obligations.WritesToDifferentBitsCommute : Prop :=
  (∀ (s : State) (i j : Fin 8) (v w : Int), i ≠ j →
    ∃ t, execAll [.set i.val v, .set j.val w] s = .next t ∧ execAll [.set j.val w, .set i.val v] s = .next t) ∧
  (∀ (s : State) (i j : Fin 8) (f g : Field) (v w : Bool), (i, f) ≠ (j, g) →
    ∃ t, execAll [fieldWriteInstr f i.val v, fieldWriteInstr g j.val w] s = .next t ∧
      execAll [fieldWriteInstr g j.val w, fieldWriteInstr f i.val v] s = .next t)

/-! ## All commands -/

/-- R131, R135: OutOfRange is raised exactly outside `0..7`, before anything else is done, by every command; an in-range
command always succeeds. -/
def Obligations.OutOfRangeExactlyOutsideTheEightRecords : Prop :=
  (∀ (i : Instr) (s : State), (i.idx < 0 ∨ 8 ≤ i.idx) → exec i s = outOfRangeAnswer s) ∧
  (∀ (i : Instr) (s : State), 0 ≤ i.idx → i.idx < 8 → ∃ t r w, exec i s = .next t ∧ r ≠ .errOutOfRange ∧
    t.responses = s.responses ++ [r] ∧ t.rsp = some w ∧ w.getLsbD 3 = false ∧ t.faulted = s.faulted) ∧
  (∀ cw : CmdWord, ((decode cw).idx < 0 ∨ 8 ≤ (decode cw).idx) ↔ cw.extractLsb' 11 2 ≠ 0b00#2)

/-- R137: there is no sticky error, and the next command is executed as it would have been without the error; the mark that
the run keeps outside the block is set and no later step clears it. -/
def Obligations.ErrorsDoNotStick : Prop :=
  (∀ (i : Instr) (s t : State), ¬ IndexOk i.idx → exec i s = .next t →
    t.block = s.block ∧ t.faulted = true ∧
    ∀ j : Instr, ∃ u v r, exec j s = .next u ∧ exec j t = .next v ∧ v.block = u.block ∧ v.rsp = u.rsp ∧
      u.responses = s.responses ++ [r] ∧ v.responses = t.responses ++ [r]) ∧
  (∀ s t : State, s.faulted = true → step s = .next t → t.faulted = true)

/-- R99, R118: the reading commands leave the three bytes, and the same read gives the same response again with any
commands that write nothing between. -/
def Obligations.ReadsHaveNoSideEffects : Prop :=
  (∀ (i : Instr) (s : State), i.kind ≠ .write → ∃ t, exec i s = .next t ∧ t.block = s.block ∧
    ∀ k, t.block.readByte k = s.block.readByte k) ∧
  (∀ (i : Instr) (between : List Instr) (s : State), i.kind ≠ .write → (∀ c ∈ between, c.kind ≠ .write) →
    ∃ t u v, exec i s = .next t ∧ execAll between t = .next u ∧ exec i u = .next v ∧ v.rsp = t.rsp ∧
      v.responses.getLast? = t.responses.getLast?)

/-- Writing twice is writing once (20_memory.md section 10, idempotency). -/
def Obligations.WritesAreIdempotent : Prop :=
  ∀ (i : Instr) (s : State), i.kind = .write → ∃ t u, exec i s = .next t ∧ exec i t = .next u ∧ u.block = t.block

/-- R26: a flag is written by SET and by its own field write alone, is read by GET and by its own field read, and is
false after reset; a command leaves nothing behind but its change to the bytes: what follows it is answered as any state
with the same bytes answers. -/
def Obligations.FlagsChangeOnlyByTheirOwnWrites : Prop :=
  (∀ (i : Instr) (s t : State) (j : Fin 8) (f : Field), exec i s = .next t →
    t.block.flag j f ≠ s.block.flag j f →
    (∃ val, i = .set j.val val) ∨ i = fieldWriteInstr f j.val (!s.block.flag j f)) ∧
  (∀ (s : State) (j : Fin 8) (f : Field) (v : Bool),
    (∃ t, exec (fieldWriteInstr f j.val v) s = .next t ∧ t.block.flag j f = v) ∧
    (∃ t, exec (.set j.val (if v then 7 else 0)) s = .next t ∧ ∀ g, t.block.flag j g = v) ∧
    (∃ t, exec (fieldReadInstr f j.val) s = .next t ∧
      t.responses = s.responses ++ [.okFlag (s.block.flag j f)]) ∧
    (∃ t r, exec (.get j.val) s = .next t ∧ t.responses = s.responses ++ [.okRec r] ∧
      recordFlag r f = s.block.flag j f) ∧
    State.reset.block.flag j f = false) ∧
  (∀ (i j : Instr) (s t u : State), exec i s = .next t → u.block = t.block →
    ∃ v w r, exec j t = .next v ∧ exec j u = .next w ∧ v.block = w.block ∧ v.rsp = w.rsp ∧
      v.responses = t.responses ++ [r] ∧ w.responses = u.responses ++ [r])

/-- Two blocks with equal bytes answer alike (10_state.md section 1): the response, the new bytes and the error depend on
nothing else in State, and nothing else but the ports and the run's record changes. -/
def Obligations.ResponsesDependOnTheBytesAlone : Prop :=
  ∀ (i : Instr) (s s' : State), s.block = s'.block → ∃ b r e,
    exec i s = .next
      { s with
        block := b, rsp := some (encodeRsp r), responses := s.responses ++ [r], faulted := s.faulted || e } ∧
    exec i s' = .next
      { s' with
        block := b, rsp := some (encodeRsp r), responses := s'.responses ++ [r], faulted := s'.faulted || e }

/-- The secondary access is guarded, and with the guard no access leaves the three bytes (20_memory.md sections 1 and 4,
70_reset_and_hazards.md section 3). That an access to byte 3 would fault is the model's reading of "there is no byte 3"
(log entry 9, DEDUCED). -/
def Obligations.NoAccessLeavesTheThreeBytes : Prop :=
  (∀ i : Fin 8, (msg i).secondary.isSome = true ↔ (adec i).bitOffset > 5) ∧
  (adec 6).byteIndex + 1 = 3 ∧ (adec 7).byteIndex + 1 = 3 ∧ (adec 0).bitOffset = 0 ∧
  (∀ b : Block, b.readByte 3 = .error (.noSuchByte 3)) ∧
  (∀ (i : Instr) (s : State) (r : Fault), exec i s ≠ .fault r) ∧
  (∀ (s : State) (r : Fault), step s ≠ .fault r)

/-! ## The datapath tables -/

/-- R43, R44, R46: the address decoder's tables. -/
def Obligations.AddressDecoderTables : Prop :=
  (List.ofFn adec = [⟨0, 0, 0, false⟩, ⟨3, 0, 3, false⟩, ⟨6, 0, 6, true⟩, ⟨9, 1, 1, false⟩, ⟨12, 1, 4, false⟩,
    ⟨15, 1, 7, true⟩, ⟨18, 2, 2, false⟩, ⟨21, 2, 5, false⟩]) ∧
  (∀ i : Fin 8, (adec i).straddle = true ↔ i = 2 ∨ i = 5) ∧
  (∀ (i : Fin 8) (f : Field), (adec1 i f).bitPosition = i.val * 3 + fieldOffset f ∧
    (adec1 i f).byteIndex = (i.val * 3 + fieldOffset f) / 8 ∧
    (adec1 i f).bitOffset = (i.val * 3 + fieldOffset f) % 8) ∧
  (List.ofFn fun i => ([Field.mine, .revealed, .flagged].filter fun f =>
    (adec1 i f).byteIndex = (adec i).byteIndex).length) = [3, 3, 2, 3, 3, 1, 3, 3] ∧
  (∀ (i : Fin 8) (f : Field), (adec1 i f).byteIndex ≠ (adec i).byteIndex ↔
    (i, f) = (2, .flagged) ∨ (i, f) = (5, .revealed) ∨ (i, f) = (5, .flagged))

/-- R47, R48, R50: the mask/shift generator's values, computed here in whole numbers. -/
def Obligations.MaskShiftValues : Prop :=
  (∀ i : Fin 8, (msg i).shift = (adec i).bitOffset ∧
    (msg i).mask.toNat = 7 * 2 ^ (adec i).bitOffset % 256 ∧
    (msg i).keep.toNat = 255 - 7 * 2 ^ (adec i).bitOffset % 256 ∧
    ((adec i).bitOffset ≤ 5 → (msg i).secondary = none) ∧
    ((adec i).bitOffset > 5 → ∃ m, (msg i).secondary = some m ∧ m.byteIndex = (adec i).byteIndex + 1 ∧
      m.shift = 8 - (adec i).bitOffset ∧ m.mask.toNat = 7 / 2 ^ (8 - (adec i).bitOffset) ∧
      m.keep.toNat = 255 - 7 / 2 ^ (8 - (adec i).bitOffset))) ∧
  (∀ (i : Fin 8) (f : Field), (msg1 i f).shift = (adec1 i f).bitOffset ∧
    (msg1 i f).mask.toNat = 2 ^ (adec1 i f).bitOffset ∧ (msg1 i f).keep.toNat = 255 - 2 ^ (adec1 i f).bitOffset)

/-- R22: the 24-bit view. -/
def Obligations.SpanIsTheThreeBytesInOrder : Prop :=
  ∀ b : Block,
    b.span.toNat = b.b0.toNat + 256 * b.b1.toNat + 65536 * b.b2.toNat ∧
    b.span.extractLsb' 0 8 = b.b0 ∧ b.span.extractLsb' 8 8 = b.b1 ∧ b.span.extractLsb' 16 8 = b.b2 ∧
    (∀ p, p < 24 → b.span.getLsbD p = (b.byteAt (p / 8)).getLsbD (p % 8)) ∧
    (∀ c : Block, c.span = b.span → c = b)

/-- The eight records give back the whole state (10_state.md section 3, what the host can observe): `W` is the sum over
`i` of `rec(i) * 8^i`, the powers of 8 written out. -/
def Obligations.RecordsDetermineTheSpan : Prop :=
  ∀ b : Block, b.span.toNat =
    (b.record 0).toNat + (b.record 1).toNat * 8 + (b.record 2).toNat * 64 + (b.record 3).toNat * 512 +
    (b.record 4).toNat * 4096 + (b.record 5).toNat * 32768 + (b.record 6).toNat * 262144 +
    (b.record 7).toNat * 2097152

/-- Every one of the 2^24 states is reachable from reset by at most eight SET commands (10_state.md section 1). -/
def Obligations.EveryBlockStateIsReachable : Prop :=
  ∀ b : Block, ∃ cmds : List Instr, cmds.length ≤ 8 ∧ (∀ c ∈ cmds, ∃ (i : Fin 8) (v : Nat), c = .set i.val v) ∧
    ∃ t, execAll cmds State.reset = .next t ∧ t.block = b

/-! ## Words -/

/-- A few words written out from the encodings of R75 (95_test_vectors.md, V-C), one per operation. -/
def Obligations.DecodesWrittenOutWords : Prop :=
  decode 0b0001111100000000#16 = .get (-1) ∧
  decode 0b0010011111111111#16 = .set 7 255 ∧
  decode 0b0100010100000000#16 = .isMine 5 ∧
  decode 0b0110010100000010#16 = .setMine 5 false ∧
  decode 0b1000101010101010#16 = .isRevealed 10 ∧
  decode 0b1010010100000001#16 = .setRevealed 5 true ∧
  decode 0b1100001000000000#16 = .isFlagged 2 ∧
  decode 0b1111111111111111#16 = .setFlagged (-1) true

/-- R83: the decoder, and the block's behaviour on the ports. -/
def Obligations.DecodeFollowsTheOpcodeMap : Prop :=
  ∀ (s : State) (cw : CmdWord) (rest : List PortIn),
    (decode cw =
      let field := (cw.extractLsb' 8 5).toNat
      let idx : Int := if field < 16 then field else (field : Int) - 32
      let val : Int := (cw.extractLsb' 0 8).toNat
      let b := cw.extractLsb' 0 1 == 1#1
      match (cw.extractLsb' 13 3).toNat with
      | 0 => .get idx
      | 1 => .set idx val
      | 2 => .isMine idx
      | 3 => .setMine idx b
      | 4 => .isRevealed idx
      | 5 => .setRevealed idx b
      | 6 => .isFlagged idx
      | _ => .setFlagged idx b) ∧
    (s.constructed = true → s.inputs = presentWord cw :: rest →
      step s = exec (decode cw) { s with inputs := rest }) ∧
    (∃ t r, exec (decode cw) s = .next t ∧ t.responses = s.responses ++ [r] ∧ t.rsp = some (encodeRsp r))

/-- R74, R75: every word is selected by exactly one row of the opcode map, the row of what it decodes to, and the operands
stand where the row's pattern says. -/
def Obligations.OpcodeRowsPartitionTheWords : Prop :=
  opTable = [⟨"GET", 0, false, 0x0000, 0xE000⟩, ⟨"SET", 0, true, 0x2000, 0xE000⟩,
    ⟨"IS_MINE", 1, false, 0x4000, 0xE000⟩, ⟨"SET_MINE", 1, true, 0x6000, 0xE000⟩,
    ⟨"IS_REVEALED", 2, false, 0x8000, 0xE000⟩, ⟨"SET_REVEALED", 2, true, 0xA000, 0xE000⟩,
    ⟨"IS_FLAGGED", 3, false, 0xC000, 0xE000⟩, ⟨"SET_FLAGGED", 3, true, 0xE000, 0xE000⟩] ∧
  (∀ cw : CmdWord, opTable.filter (·.selects cw) = [opRow (decode cw)] ∧
    (opRow (decode cw)).write = cw.getLsbD 13 ∧ (opRow (decode cw)).sel = cw.extractLsb' 14 2) ∧
  (∀ (f : Field) (idx : Int) (b : Bool), fieldOffset f = (opRow (fieldReadInstr f idx)).sel.toNat - 1 ∧
    fieldOffset f = (opRow (fieldWriteInstr f idx b)).sel.toNat - 1 ∧
    (opRow (fieldReadInstr f idx)).sel ≠ 0 ∧ (opRow (fieldWriteInstr f idx b)).sel ≠ 0) ∧
  (∀ i : Instr, (opRow i).write = true ↔ i.kind = .write) ∧
  (∀ cw : CmdWord, (decode cw).idx = (cw.extractLsb' 8 5).toInt ∧
    (∀ idx val, decode cw = .set idx val → val % 8 = (cw.extractLsb' 0 3).toNat) ∧
    (∀ f idx b, decode cw = fieldWriteInstr f idx b → b = cw.getLsbD 0))

/-- The operand bits a command does not use affect neither the state nor the response (30_encoding.md section 4, R79), and
the canonical words of reads and field writes have them zero. -/
def Obligations.IgnoredOperandBitsHaveNoEffect : Prop :=
  (∀ (s : State) (cw : CmdWord) (x : BitVec 16),
    ((decode cw).kind ≠ .write → x &&& 0xFF00#16 = 0#16 → exec (decode (cw ^^^ x)) s = exec (decode cw) s) ∧
    ((∃ idx val, decode cw = .set idx val) → x &&& 0xFF07#16 = 0#16 →
      exec (decode (cw ^^^ x)) s = exec (decode cw) s) ∧
    ((∃ f idx b, decode cw = fieldWriteInstr f idx b) → x &&& 0xFF01#16 = 0#16 →
      exec (decode (cw ^^^ x)) s = exec (decode cw) s)) ∧
  (∀ (i : Instr) (cw : CmdWord), encode i = .ok cw →
    (i.kind ≠ .write → cw &&& 0x00FF#16 = 0#16) ∧
    ((∃ f idx b, i = fieldWriteInstr f idx b) → cw &&& 0x00FE#16 = 0#16))

/-- Decode and encode agree on every well-formed command, with every operand at every value that the encoding admits
(30_encoding.md, "Encoding an abstract command"). -/
def Obligations.DecodeOfEncodeIsTheCommand : Prop :=
  ∀ i : Instr, i.wf = true → ∃ cw, encode i = .ok cw ∧ decode cw = i

/-- Encoding what a word decodes to gives the word back exactly when its ignored bits are zero (30_encoding.md,
"Encoding an abstract command"). -/
def Obligations.EncodeOfDecodeIsTheCanonicalWord : Prop :=
  ∀ cw : CmdWord, (decode cw).wf = true ∧
    (encode (decode cw) = .ok cw ↔
      match decode cw with
      | .set _ _ => True
      | .setMine _ _ => cw &&& 0x00FE#16 = 0#16
      | .setRevealed _ _ => cw &&& 0x00FE#16 = 0#16
      | .setFlagged _ _ => cw &&& 0x00FE#16 = 0#16
      | _ => cw &&& 0x00FF#16 = 0#16)

/-- R88: the assembler emits the canonical word, rejects what has none, and does not reject an index only for being out of
range. -/
def Obligations.AssemblerRejectsExactlyTheUnencodable : Prop :=
  (∀ i : Instr, (i.idx < -16 ∨ 15 < i.idx) →
    assembleEvent (.command i) = .error (.unencodable .indexUnencodable)) ∧
  (∀ idx val : Int, -16 ≤ idx → idx ≤ 15 → (val < 0 ∨ 255 < val) →
    assembleEvent (.command (.set idx val)) = .error (.unencodable .valueUnencodable)) ∧
  (∀ idx val : Int, -16 ≤ idx → idx ≤ 15 → 0 ≤ val → val ≤ 255 →
    assembleEvent (.command (.set idx val)) = .ok (presentWord (encodeWord (.set idx val)))) ∧
  (∀ i : Instr, (∀ idx val, i ≠ .set idx val) → -16 ≤ i.idx → i.idx ≤ 15 →
    assembleEvent (.command i) = .ok (presentWord (encodeWord i)))

/-- R82: reading the response word against the kind of the command gives the response. -/
def Obligations.ResponseWordIsReadBack : Prop :=
  (∀ (i : Instr) (s : State), ∃ t r w, exec i s = .next t ∧ t.responses = s.responses ++ [r] ∧ t.rsp = some w ∧
    decodeRsp i.kind w = r) ∧
  (∀ (k : CmdKind) (rw : RspWord), rw.getLsbD 3 = true → decodeRsp k rw = .errOutOfRange) ∧
  (∀ rw : RspWord, rw.getLsbD 3 = false → decodeRsp .recordRead rw = .okRec (rw.extractLsb' 0 3) ∧
    decodeRsp .fieldRead rw = .okFlag (rw.getLsbD 0) ∧ decodeRsp .write rw = .okUnit) ∧
  decodeRsp .recordRead 0x0 = .okRec 0 ∧ decodeRsp .fieldRead 0x0 = .okFlag false ∧ decodeRsp .write 0x0 = .okUnit

/-- The response word by command and outcome (30_encoding.md, "The data field, by command and outcome"); the words 0x9 to
0xF never occur. -/
def Obligations.ResponseWordsByOutcome : Prop :=
  ∀ (i : Instr) (s : State), ∃ t r w, exec i s = .next t ∧ t.responses = s.responses ++ [r] ∧ t.rsp = some w ∧
    w.toNat ≤ 8 ∧
    (match r with
     | .okRec v => i.kind = .recordRead ∧ w.getLsbD 3 = false ∧ w.extractLsb' 0 3 = v
     | .okFlag v => i.kind = .fieldRead ∧ w = if v then 0x1 else 0x0
     | .okUnit => i.kind = .write ∧ w = 0x0
     | .errOutOfRange => w = 0x8)

/-! ## Events and runs -/

/-- A step runs the decoded instruction, past the sample that presented it; a word placed by withFetchWord is the next one
that runs (log entries 2 and 7). -/
def Obligations.StepRunsTheDecodedCommand : Prop :=
  (∀ (s : State) (cw : CmdWord) (rest : List PortIn), s.constructed = true → s.inputs = presentWord cw :: rest →
    step s = exec (decode cw) { s with inputs := rest }) ∧
  (∀ (s : State) (cw : CmdWord),
    step (s.withFetchWord 16 cw.toNat) = exec (decode cw) { s with constructed := true })

/-- What the ports show after an event that is no command, which the spec leaves open: a reset leaves no response word, an
idle sample and the end of the samples leave the one that stands (log entries 3 and 4). The run's list and mark outlast a
reset (log entry 6), and `constructed` is the model's own (log entry 7). -/
def Obligations.EventsWithoutACommand : Prop :=
  (∀ s : State, s.inputs = [] → step s = .next s) ∧
  (∀ (s : State) (p : PortIn) (rest : List PortIn), s.inputs = p :: rest → p.rst = false → p.cmdValid = false →
    step s = .next { s with inputs := rest }) ∧
  (∀ (s : State) (p : PortIn) (rest : List PortIn), s.inputs = p :: rest → p.rst = true → p.cmdValid = false →
    step s = .next { s with inputs := rest, block := ⟨0x00, 0x00, 0x00⟩, constructed := true, rsp := none })

/-- A reset and a command presented at once are refused (70_reset_and_hazards.md section 1; log entry 8). -/
def Obligations.ResetAndCommandNeverCoincide : Prop :=
  ∀ (s : State) (cw : CmdWord) (rest : List PortIn), s.inputs = ⟨true, true, cw⟩ :: rest →
    step s = .refused .overlappingEvents

/-- R72: one response per command, none for a reset, and none where there is no event. -/
def Obligations.OneResponsePerCommandEvent : Prop :=
  ∀ (s t : State) (p : PortIn) (rest : List PortIn), s.inputs = p :: rest → step s = .next t →
    t.inputs = rest ∧ ¬ (p.rst = true ∧ p.cmdValid = true) ∧
    (p.rst = false → p.cmdValid = true →
      ∃ r, t.responses = s.responses ++ [r] ∧ t.rsp = some (encodeRsp r)) ∧
    (p.rst = true → t.responses = s.responses) ∧
    (p.rst = false → p.cmdValid = false → t.responses = s.responses)

/-- R32: the state persists between events, and only a writing command or a reset changes the bytes. -/
def Obligations.OnlyWritesAndResetChangeTheBytes : Prop :=
  ∀ s t : State, step s = .next t → t.block ≠ s.block →
    ∃ p rest, s.inputs = p :: rest ∧ (portEvent p = .reset ∨
      ∃ cw, portEvent p = .command cw ∧ IndexOk (decode cw).idx ∧ (decode cw).kind = .write)

/-- A run of events that keep the discipline takes a step for each event, with one response per command; if every index
is in range the run is safe (70_reset_and_hazards.md section 5). -/
def Obligations.DisciplinedRunsComplete : Prop :=
  ∀ events : List PortIn, (∀ p ∈ events, p.disciplined = true) →
    ∃ t : State, Host.Core.run Sys2Proof.core events.length (State.launch events) = .next t ∧ t.inputs = [] ∧
      t.responses.length = commandCount events ∧
      (t.Safe ↔ ∀ p ∈ events, p.indexOk = true)

/-- The invariant of the ports and the run holds at reset. -/
def Obligations.InvariantHoldsAtReset : Prop := State.reset.Inv

/-- Every step keeps the invariant: the `rsp` port shows the latest response, the mark tells of the errors, and nothing
was answered before the first reset. -/
def Obligations.EveryStepKeepsTheInvariant : Prop :=
  ∀ s t : State, s.Inv → step s = .next t → t.Inv

/-- What no command touches: the host's samples and the mark of construction; the run's list only grows by one. -/
def Obligations.CommandsLeaveTheHostSide : Prop :=
  ∀ (i : Instr) (s t : State), exec i s = .next t →
    t.inputs = s.inputs ∧ t.constructed = s.constructed ∧ t.responses.length = s.responses.length + 1 ∧
    s.responses <+: t.responses ∧ (t.faulted = true ↔ s.faulted = true ∨ ¬ IndexOk i.idx)

/-! ## The array of blocks -/

/-- R65: the number of blocks, the cells each holds, and the storage cost. -/
def Obligations.BlockCountIsTheCeiling : Prop :=
  (∀ n, nBlocks n = (n + 7) / 8 ∧ n ≤ 8 * nBlocks n ∧ 8 * nBlocks n < n + 8) ∧
  (∀ g k, blockIndex g = k ↔ 8 * k ≤ g ∧ g ≤ 8 * k + 7) ∧
  (∀ (p : Config.HostParams) (bytes : Nat → Block), (Board.allocate p bytes).blocks.length = nBlocks p.totalCells) ∧
  (∀ n g, g < n → blockIndex g < nBlocks n) ∧
  (∀ n, Config.bytesPerBlock * nBlocks (Config.recordsPerBlock * n) = 3 * n)

/-- A host that routes by the mapping is answered without OutOfRange (20_memory.md section 12). -/
def Obligations.RoutedAccessIsInRange : Prop :=
  ∀ (bd : Board) (g : Nat) (i : Instr) (s : State), g < bd.params.totalCells →
    bd.blocks[blockIndex g]? = some s → s.constructed = true →
    8 * blockIndex g + localIndex g = g ∧ localIndex g < 8 ∧
    ∃ bd' t r, bd.access g i = .next bd' ∧ bd'.params = bd.params ∧
      bd'.blocks = bd.blocks.set (blockIndex g) t ∧
      exec (Instr.withIndex i (localIndex g)) s = .next t ∧ t.responses = s.responses ++ [r] ∧ r ≠ .errOutOfRange ∧
      t.faulted = s.faulted

/-- The host's parameters (00_scope.md section 5, 20_memory.md section 12): a global index of a cell fits its GIDX_W bits,
every block of a cell is there, and what names no cell or no block is refused (the array layer and its refusals: log
entry 13). -/
def Obligations.GlobalIndicesFitTheirWidth : Prop :=
  (∀ p : Config.HostParams, p.totalCells ≤ 2 ^ p.gidxW ∧ (1500000000 ≤ p.totalCells → 31 ≤ p.gidxW)) ∧
  (∀ (bd : Board) (g : Nat), g < bd.params.totalCells →
    (∃ s, bd.blocks[blockIndex g]? = some s) ∧
    ∃ w : BitVec bd.params.gidxW, w.toNat = g ∧ ∀ i, bd.accessWord w i = bd.access g i) ∧
  (∀ (bd : Board) (g : Nat) (i : Instr), bd.params.totalCells ≤ g → bd.access g i = .refused (.noSuchCell g)) ∧
  (∀ (bd : Board) (k : Nat) (p : PortIn), nBlocks bd.params.totalCells ≤ k →
    bd.present k p = .refused (.noSuchBlock k)) ∧
  (∀ bd : Board, bd.blocks.length = (bd.params.totalCells + 7) / 8)

/-- An event on one block never reads or changes another (10_state.md section 5, 20_memory.md section 12). -/
def Obligations.BlocksAreIndependent : Prop :=
  ∀ (bd bd' : Board) (k : Nat) (p : PortIn), bd.present k p = .next bd' →
    bd'.params = bd.params ∧ bd'.blocks.length = bd.blocks.length ∧
    (∀ j, j ≠ k → bd'.blocks[j]? = bd.blocks[j]?) ∧
    ∀ other : Board, other.blocks[k]? = bd.blocks[k]? →
      ∃ other', other.present k p = .next other' ∧ other'.blocks[k]? = bd'.blocks[k]?
end

