-- ==== Sys2Proof/Laws/Views.lean ====
section
/-! SUPPORT. The bit space and the record space as views of the three bytes: a block is its 24-bit view, and is its eight
records; what a write to a record or to a flag does to the records and the flags. -/

namespace Sys2Proof.Machine

theorem span_bit0 (b : Block) {p : Nat} (h : p < 8) : b.span.getLsbD p = b.b0.getLsbD p := by
  simp [Block.span, h, show p < 16 by omega, show p < 24 by omega]

theorem span_bit1 (b : Block) {p : Nat} (h : p < 8) : b.span.getLsbD (8 + p) = b.b1.getLsbD p := by
  simp [Block.span, show 8 + p < 16 by omega, show 8 + p < 24 by omega]

theorem span_bit2 (b : Block) {p : Nat} (h : p < 8) : b.span.getLsbD (16 + p) = b.b2.getLsbD p := by
  simp [Block.span, show 16 + p < 24 by omega, show ¬ 16 + p < 8 by omega,
    BitVec.getLsbD_of_ge b.b0 (16 + p) (by omega), BitVec.getLsbD_of_ge b.b1 (16 + p - 8) (by omega)]

@[simp] theorem span_ofSpan (w : Span) : (Block.ofSpan w).span = w := by
  refine BitVec.eq_of_getLsbD_eq fun p hp => ?_
  rcases Nat.lt_or_ge p 8 with h | h
  · rw [span_bit0 _ h]; simp [Block.ofSpan, h]
  rcases Nat.lt_or_ge p 16 with h' | h'
  · obtain ⟨q, rfl⟩ := Nat.exists_eq_add_of_le h
    rw [span_bit1 _ (by omega)]; simp [Block.ofSpan, show q < 8 by omega]
  · obtain ⟨q, rfl⟩ := Nat.exists_eq_add_of_le h'
    rw [span_bit2 _ (by omega)]; simp [Block.ofSpan, show q < 8 by omega]

theorem block_eq_of_span {b c : Block} (h : b.span = c.span) : b = c := by
  have hbit : ∀ p, b.span.getLsbD p = c.span.getLsbD p := fun p => by rw [h]
  rcases b with ⟨x0, x1, x2⟩
  rcases c with ⟨y0, y1, y2⟩
  congr 1
  · exact BitVec.eq_of_getLsbD_eq fun p hp => by
      have := hbit p; rwa [span_bit0 _ hp, span_bit0 _ hp] at this
  · exact BitVec.eq_of_getLsbD_eq fun p hp => by
      have := hbit (8 + p); rwa [span_bit1 _ hp, span_bit1 _ hp] at this
  · exact BitVec.eq_of_getLsbD_eq fun p hp => by
      have := hbit (16 + p); rwa [span_bit2 _ hp, span_bit2 _ hp] at this

/-- Bit `q` of record `i` is span bit `3i + q`. -/
theorem record_bit (b : Block) (i : Fin 8) {q : Nat} (h : q < 3) :
    (b.record i).getLsbD q = b.span.getLsbD (3 * i.val + q) := by
  simp [Block.record, h]

theorem fieldOffset_lt (f : Field) : fieldOffset f < 3 := by cases f <;> decide

theorem fieldOffset_inj {f g : Field} : fieldOffset f = fieldOffset g ↔ f = g := by
  cases f <;> cases g <;> decide

theorem flag_eq_recordFlag (b : Block) (i : Fin 8) (f : Field) : b.flag i f = recordFlag (b.record i) f := by
  rw [recordFlag, record_bit b i (fieldOffset_lt f), Block.flag]

/-- Two blocks with the same records are the same block. -/
theorem block_eq_of_records {b c : Block} (h : ∀ i, b.record i = c.record i) : b = c := by
  refine block_eq_of_span (BitVec.eq_of_getLsbD_eq fun p hp => ?_)
  have hq : p % 3 < 3 := Nat.mod_lt _ (by omega)
  have hi : p / 3 < 8 := by omega
  have := congrArg (BitVec.getLsbD · (p % 3)) (h ⟨p / 3, hi⟩)
  rwa [record_bit _ _ hq, record_bit _ _ hq, Nat.div_add_mod] at this

/-- A record value is its three flags. -/
theorem rec_eq_of_flags {r s : Rec} (h : ∀ f, recordFlag r f = recordFlag s f) : r = s := by
  refine BitVec.eq_of_getLsbD_eq fun q hq => ?_
  interval_cases q
  · exact h .mine
  · exact h .revealed
  · exact h .flagged

/-- Two blocks with the same flags are the same block. -/
theorem block_eq_of_flags {b c : Block} (h : ∀ i f, b.flag i f = c.flag i f) : b = c :=
  block_eq_of_records fun i => rec_eq_of_flags fun f => by
    rw [← flag_eq_recordFlag, ← flag_eq_recordFlag, h]

theorem span_withRecord_bit (b : Block) (i : Fin 8) (v : Rec) {p : Nat} (hp : p < 24) :
    (b.withRecord i v).span.getLsbD p =
      if p / 3 = i.val then v.getLsbD (p % 3) else b.span.getLsbD p := by
  have hi := i.isLt
  have h7 : ∀ q, (7#24).getLsbD q = decide (q < 3) := by
    intro q
    rcases Nat.lt_or_ge q 24 with h | h
    · interval_cases q <;> rfl
    · simp [show ¬ q < 3 by omega, BitVec.getLsbD_of_ge _ _ h]
  simp only [Block.withRecord, span_ofSpan, BitVec.getLsbD_or, BitVec.getLsbD_and, BitVec.getLsbD_not,
    BitVec.getLsbD_shiftLeft, BitVec.getLsbD_setWidth, h7, hp, decide_true, Bool.true_and]
  split
  · next h =>
    have h1 : ¬ p < 3 * i.val := by omega
    have h2 : p - 3 * i.val < 3 := by omega
    have h3 : p - 3 * i.val = p % 3 := by omega
    have h4 : p % 3 < 3 := by omega
    have h5 : p % 3 < 24 := by omega
    simp [h1, h3, h4, h5]
  · next h =>
    by_cases h1 : p < 3 * i.val
    · simp [h1]
    · have h2 : ¬ p - 3 * i.val < 3 := by omega
      simp [h1, h2, BitVec.getLsbD_of_ge v _ (by omega : 3 ≤ p - 3 * i.val)]

/-- Writing a record gives it its value and leaves every other record. -/
theorem record_withRecord (b : Block) (i j : Fin 8) (v : Rec) :
    (b.withRecord i v).record j = if j = i then v else b.record j := by
  refine BitVec.eq_of_getLsbD_eq fun q hq => ?_
  have hj := j.isLt
  rw [record_bit _ _ hq, span_withRecord_bit _ _ _ (by omega)]
  have h3 : (3 * j.val + q) / 3 = j.val := by omega
  have h4 : (3 * j.val + q) % 3 = q := by omega
  rw [h3, h4]
  by_cases h : j = i
  · simp [h]
  · simp [h, Fin.val_inj, record_bit _ _ hq]

theorem span_withFlag_bit (b : Block) (i : Fin 8) (f : Field) (v : Bool) {p : Nat} (hp : p < 24) :
    (b.withFlag i f v).span.getLsbD p =
      if p = 3 * i.val + fieldOffset f then v else b.span.getLsbD p := by
  have hi := i.isLt
  have hf := fieldOffset_lt f
  have h1 : ∀ q, (1#24).getLsbD q = decide (q = 0) := fun q => by simp [BitVec.getLsbD_one]
  have hv : ∀ q, ((BitVec.ofBool v).setWidth 24).getLsbD q = (decide (q = 0) && v) := by
    intro q
    rcases q with _ | q <;> cases v <;> simp
  simp only [Block.withFlag, span_ofSpan, BitVec.getLsbD_or, BitVec.getLsbD_and, BitVec.getLsbD_not,
    BitVec.getLsbD_shiftLeft, h1, hv, hp, decide_true, Bool.true_and]
  by_cases h : p = 3 * i.val + fieldOffset f
  · simp [h]
  · by_cases h2 : p < 3 * i.val + fieldOffset f
    · simp [h, h2]
    · simp [h, h2, show ¬ p - (3 * i.val + fieldOffset f) = 0 by omega]

/-- Writing a flag gives it its value and leaves every other flag. -/
theorem flag_withFlag (b : Block) (i j : Fin 8) (f g : Field) (v : Bool) :
    (b.withFlag i f v).flag j g = if j = i ∧ g = f then v else b.flag j g := by
  have hj := j.isLt
  have hf := fieldOffset_lt f
  have hg := fieldOffset_lt g
  rw [Block.flag, span_withFlag_bit _ _ _ _ (by omega)]
  have : (3 * j.val + fieldOffset g = 3 * i.val + fieldOffset f) ↔ (j = i ∧ g = f) := by
    rw [Fin.ext_iff, ← fieldOffset_inj]; omega
  simp only [this]
  rfl

/-- A record write, seen flag by flag. -/
theorem flag_withRecord (b : Block) (i j : Fin 8) (v : Rec) (g : Field) :
    (b.withRecord i v).flag j g = if j = i then recordFlag v g else b.flag j g := by
  simp only [flag_eq_recordFlag, record_withRecord]
  split <;> rfl

end Sys2Proof.Machine
end

