-- ==== Sys2Proof/Laws/Access.lean ====
section
/-! SUPPORT. What the access paths do, once each: they are the record and flag views and never leave the three bytes
(R51, R52, R53). -/

namespace Sys2Proof.Machine

theorem extract3_eq (b : Block) (i : Fin 8) : extract3 b i = .ok (b.record i) := by
  rcases b with ⟨b0, b1, b2⟩
  fin_cases i <;>
    simp [extract3, msg, adec, secondaryMask, Block.readByte, Block.record, Block.span, bind, Except.bind] <;>
    (apply BitVec.eq_of_getLsbD_eq
     intro j hj
     interval_cases j <;> simp)

theorem merge3_eq (b : Block) (i : Fin 8) (v : Rec) : merge3 b i v = .ok (b.withRecord i v) := by
  have key : ∃ b', merge3 b i v = .ok b' ∧
      b'.span = (b.span &&& ~~~(7#24 <<< (3 * i.val))) ||| (v.setWidth 24 <<< (3 * i.val)) := by
    rcases b with ⟨b0, b1, b2⟩
    fin_cases i <;>
      simp [merge3, msg, adec, secondaryMask, Block.readByte, Block.writeByte, Block.span, bind, Except.bind] <;>
      (apply BitVec.eq_of_getLsbD_eq
       intro j hj
       interval_cases j <;> simp)
  obtain ⟨b', h, hs⟩ := key
  rw [h, block_eq_of_span (b := b') (c := b.withRecord i v) (by rw [hs, Block.withRecord, span_ofSpan])]

/-- Byte `k` holds span bits `8k` to `8k + 7`. -/
theorem readByte_span (b : Block) {k : Nat} (hk : k < 3) :
    ∃ x, b.readByte k = .ok x ∧ ∀ q < 8, x.getLsbD q = b.span.getLsbD (8 * k + q) := by
  interval_cases k
  · exact ⟨_, rfl, fun q hq => by simpa using (span_bit0 b hq).symm⟩
  · exact ⟨_, rfl, fun q hq => (span_bit1 b hq).symm⟩
  · exact ⟨_, rfl, fun q hq => (span_bit2 b hq).symm⟩

/-- A byte write changes the eight span bits of its byte and no other. -/
theorem writeByte_span (b : Block) {k : Nat} (hk : k < 3) (v : Byte) :
    ∃ c, b.writeByte k v = .ok c ∧
      ∀ p < 24, c.span.getLsbD p = if p / 8 = k then v.getLsbD (p % 8) else b.span.getLsbD p := by
  have split3 : ∀ (x : Block) (j q : Nat), q < 8 → j < 3 →
      x.span.getLsbD (8 * j + q) = (if j = 0 then x.b0 else if j = 1 then x.b1 else x.b2).getLsbD q := by
    intro x j q hq hj
    interval_cases j
    · simpa using span_bit0 x hq
    · simpa using span_bit1 x hq
    · simpa using span_bit2 x hq
  have finish : ∀ c : Block,
      (∀ j < 3, (if j = 0 then c.b0 else if j = 1 then c.b1 else c.b2) =
        if j = k then v else (if j = 0 then b.b0 else if j = 1 then b.b1 else b.b2)) →
      ∀ p < 24, c.span.getLsbD p = if p / 8 = k then v.getLsbD (p % 8) else b.span.getLsbD p := by
    intro c hc p hp
    have hj : p / 8 < 3 := by omega
    have hq : p % 8 < 8 := by omega
    have hpe : 8 * (p / 8) + p % 8 = p := by omega
    have h1 := split3 c (p / 8) (p % 8) hq hj
    have h2 := split3 b (p / 8) (p % 8) hq hj
    rw [hpe] at h1 h2
    rw [h1, h2, hc _ hj]
    split <;> rfl
  interval_cases k
  · exact ⟨_, rfl, finish _ (by intro j hj; interval_cases j <;> rfl)⟩
  · exact ⟨_, rfl, finish _ (by intro j hj; interval_cases j <;> rfl)⟩
  · exact ⟨_, rfl, finish _ (by intro j hj; interval_cases j <;> rfl)⟩

/-- The bit test of a field read picks its bit. -/
theorem bitTest_eq (x : Byte) (k : Nat) : ((x >>> k) &&& 1#8 != 0#8) = x.getLsbD k := by
  have h : (x >>> k) &&& 1#8 = (BitVec.ofBool (x.getLsbD k)).setWidth 8 := by
    refine BitVec.eq_of_getLsbD_eq fun q hq => ?_
    rcases q with _ | q <;> cases hx : x.getLsbD k <;> simp [BitVec.getLsbD_one, hx]
  rw [h]
  cases x.getLsbD k <;> decide

/-- Clear one bit, then OR in its new value (R50, R53). -/
theorem mergeBit_getLsbD (x : Byte) (k : Nat) (v : Bool) {q : Nat} (hq : q < 8) :
    ((x &&& ~~~(1#8 <<< k)) ||| ((BitVec.ofBool v).setWidth 8 <<< k)).getLsbD q =
      if q = k then v else x.getLsbD q := by
  have hv : ∀ r, ((BitVec.ofBool v).setWidth 8).getLsbD r = (decide (r = 0) && v) := by
    intro r
    rcases r with _ | r <;> cases v <;> simp
  simp only [BitVec.getLsbD_or, BitVec.getLsbD_and, BitVec.getLsbD_not, BitVec.getLsbD_shiftLeft, hv,
    BitVec.getLsbD_one, hq, decide_true, Bool.true_and]
  rcases Nat.lt_trichotomy q k with h | h | h
  · simp [h, h.ne]
  · simp [h]
  · simp [h.ne', show ¬ q < k by omega, show ¬ q - k = 0 by omega]

theorem adec1_byteIndex_lt (i : Fin 8) (f : Field) : (adec1 i f).byteIndex < 3 := by
  have hi := i.isLt
  have hf := fieldOffset_lt f
  simp only [adec1]
  omega

theorem extract1_eq (b : Block) (i : Fin 8) (f : Field) : extract1 b i f = .ok (b.flag i f) := by
  obtain ⟨x, hx, hbits⟩ := readByte_span b (adec1_byteIndex_lt i f)
  have hbit := hbits (adec1 i f).bitOffset (Nat.mod_lt _ (by omega))
  have hp : 8 * (adec1 i f).byteIndex + (adec1 i f).bitOffset = 3 * i.val + fieldOffset f := by
    simp only [adec1]; omega
  rw [hp] at hbit
  simp [extract1, msg1, hx, bind, Except.bind, bitTest_eq, hbit, Block.flag]

theorem merge1_eq (b : Block) (i : Fin 8) (f : Field) (v : Bool) :
    merge1 b i f v = .ok (b.withFlag i f v) := by
  obtain ⟨x, hx, hbits⟩ := readByte_span b (adec1_byteIndex_lt i f)
  obtain ⟨c, hc, hspan⟩ := writeByte_span b (adec1_byteIndex_lt i f)
    ((x &&& ~~~(1#8 <<< (adec1 i f).bitOffset)) ||| ((BitVec.ofBool v).setWidth 8 <<< (adec1 i f).bitOffset))
  have hm : merge1 b i f v = .ok c := by
    simpa [merge1, msg1, hx, bind, Except.bind] using hc
  have hpos : 8 * (adec1 i f).byteIndex + (adec1 i f).bitOffset = 3 * i.val + fieldOffset f := by
    simp only [adec1]; omega
  rw [hm]
  refine congrArg _ (block_eq_of_span (BitVec.eq_of_getLsbD_eq fun p hp => ?_))
  have hoff : (adec1 i f).bitOffset < 8 := Nat.mod_lt _ (by omega)
  rw [hspan p hp, span_withFlag_bit _ _ _ _ hp]
  by_cases hk : p / 8 = (adec1 i f).byteIndex
  · rw [if_pos hk, mergeBit_getLsbD _ _ _ (Nat.mod_lt _ (by omega)), hbits _ (Nat.mod_lt _ (by omega)), ← hk,
      Nat.div_add_mod]
    by_cases hq : p % 8 = (adec1 i f).bitOffset
    · rw [if_pos hq, if_pos (by omega)]
    · rw [if_neg hq, if_neg (by omega)]
  · rw [if_neg hk, if_neg (by omega)]

end Sys2Proof.Machine
end

