-- ==== Sys2Proof/Laws/State.lean ====
section
/-! SUPPORT. What each named update of the state does to each field. -/

namespace Sys2Proof.Machine

variable (s : State) (r : Response)

@[simp] theorem respond_block : (s.respond r).block = s.block := rfl
@[simp] theorem respond_constructed : (s.respond r).constructed = s.constructed := rfl
@[simp] theorem respond_inputs : (s.respond r).inputs = s.inputs := rfl
@[simp] theorem respond_rsp : (s.respond r).rsp = some (encodeRsp r) := rfl
@[simp] theorem respond_responses : (s.respond r).responses = s.responses ++ [r] := rfl
@[simp] theorem respond_faulted : (s.respond r).faulted = s.faulted := rfl

@[simp] theorem outOfRange_block : s.outOfRange.block = s.block := rfl
@[simp] theorem outOfRange_constructed : s.outOfRange.constructed = s.constructed := rfl
@[simp] theorem outOfRange_inputs : s.outOfRange.inputs = s.inputs := rfl
@[simp] theorem outOfRange_rsp : s.outOfRange.rsp = some 0x8#4 := rfl
@[simp] theorem outOfRange_responses : s.outOfRange.responses = s.responses ++ [.errOutOfRange] := rfl
@[simp] theorem outOfRange_faulted : s.outOfRange.faulted = true := rfl

@[simp] theorem resetEvent_block : s.resetEvent.block = ⟨0, 0, 0⟩ := rfl
@[simp] theorem resetEvent_constructed : s.resetEvent.constructed = true := rfl
@[simp] theorem resetEvent_inputs : s.resetEvent.inputs = s.inputs := rfl
@[simp] theorem resetEvent_rsp : s.resetEvent.rsp = none := rfl
@[simp] theorem resetEvent_responses : s.resetEvent.responses = s.responses := rfl
@[simp] theorem resetEvent_faulted : s.resetEvent.faulted = s.faulted := rfl

variable (cw : CmdWord)

@[simp] theorem presentNext_block : (presentNext s cw).block = s.block := rfl
@[simp] theorem presentNext_constructed : (presentNext s cw).constructed = true := rfl
@[simp] theorem presentNext_inputs : (presentNext s cw).inputs = presentWord cw :: s.inputs := rfl
@[simp] theorem presentNext_rsp : (presentNext s cw).rsp = s.rsp := rfl
@[simp] theorem presentNext_responses : (presentNext s cw).responses = s.responses := rfl
@[simp] theorem presentNext_faulted : (presentNext s cw).faulted = s.faulted := rfl

variable (bytes : Block)

@[simp] theorem powerUp_block : (State.powerUp bytes).block = bytes := rfl
@[simp] theorem powerUp_constructed : (State.powerUp bytes).constructed = false := rfl
@[simp] theorem powerUp_inputs : (State.powerUp bytes).inputs = [] := rfl
@[simp] theorem powerUp_rsp : (State.powerUp bytes).rsp = none := rfl
@[simp] theorem powerUp_responses : (State.powerUp bytes).responses = [] := rfl
@[simp] theorem powerUp_faulted : (State.powerUp bytes).faulted = false := rfl

variable (events : List PortIn)

@[simp] theorem launch_inputs : (State.launch events).inputs = events := rfl
@[simp] theorem launch_block : (State.launch events).block = ⟨0, 0, 0⟩ := rfl
@[simp] theorem launch_constructed : (State.launch events).constructed = true := rfl
@[simp] theorem launch_rsp : (State.launch events).rsp = none := rfl
@[simp] theorem launch_responses : (State.launch events).responses = [] := rfl
@[simp] theorem launch_faulted : (State.launch events).faulted = false := rfl

end Sys2Proof.Machine
end

