-- ==== Sys2Proof/Laws/Exec.lean ====
section
/-! SUPPORT. What a command and a step can do, said once: the range check, the shared endings, an inversion of exec and an
inversion of step. -/

namespace Sys2Proof.Machine

theorem inRange_of_ok {idx : Int} (h : IndexOk idx) : ∃ i : Fin 8, inRange idx = some i ∧ idx = (i.val : Int) :=
  ⟨⟨idx.toNat, by omega⟩, by simp [inRange, h], by simp only; omega⟩

theorem indexOk_fin (i : Fin 8) : IndexOk (i.val : Int) := ⟨by omega, by have := i.isLt; omega⟩

theorem inRange_fin (i : Fin 8) : inRange (i.val : Int) = some i := by
  have h := indexOk_fin i
  simp only [inRange, h, and_self, dite_true]
  congr 1

theorem inRange_of_not_ok {idx : Int} (h : ¬ IndexOk idx) : inRange idx = none := by
  simp only [inRange, h, dite_false]

variable (s : State) (rest : Fin 8 → Result)

@[simp] theorem checkIndex_fin (i : Fin 8) : checkIndex (i.val : Int) s rest = rest i := by
  simp [checkIndex, inRange_fin]

theorem checkIndex_out {idx : Int} (h : ¬ IndexOk idx) : checkIndex idx s rest = .next s.outOfRange := by
  simp [checkIndex, inRange_of_not_ok h, raiseOutOfRange]

@[simp] theorem answer_ok (r : Response) : answer s (.ok r) = .next (s.respond r) := rfl

@[simp] theorem commit_ok (b : Block) :
    commit s (.ok b) = .next ({ s with block := b }.respond .okUnit) := rfl

/-- What a command can do: take OutOfRange on an index that names no record, or else answer without an error and change
nothing but the bytes; a command that does not write leaves those too. -/
theorem exec_cases (i : Instr) :
    (¬ IndexOk i.idx ∧ exec i s = .next s.outOfRange) ∨
    (IndexOk i.idx ∧ ∃ b r, r ≠ .errOutOfRange ∧ decodeRsp i.kind (encodeRsp r) = r ∧
      (i.kind ≠ .write → b = s.block) ∧ exec i s = .next ({ s with block := b }.respond r)) := by
  have read : ∀ (idx : Int) (k : CmdKind) (m : Result) (r : Fin 8 → Response), k ≠ .write →
      (∀ n, r n ≠ .errOutOfRange) → (∀ n, decodeRsp k (encodeRsp (r n)) = r n) →
      (m = checkIndex idx s fun n => .next (s.respond (r n))) →
      (¬ IndexOk idx ∧ m = .next s.outOfRange) ∨ (IndexOk idx ∧ ∃ b r, r ≠ .errOutOfRange ∧
        decodeRsp k (encodeRsp r) = r ∧ (k ≠ .write → b = s.block) ∧
        m = .next ({ s with block := b }.respond r)) := by
    intro idx k m r _ he hd hm
    by_cases h : IndexOk idx
    · obtain ⟨n, hn, -⟩ := inRange_of_ok h
      exact .inr ⟨h, s.block, r n, he n, hd n, fun _ => rfl, by rw [hm, checkIndex, hn]⟩
    · exact .inl ⟨h, by rw [hm, checkIndex_out _ _ h]⟩
  have write : ∀ (idx : Int) (m : Result) (b : Fin 8 → Block),
      (m = checkIndex idx s fun n => .next ({ s with block := b n }.respond .okUnit)) →
      (¬ IndexOk idx ∧ m = .next s.outOfRange) ∨ (IndexOk idx ∧ ∃ b r, r ≠ .errOutOfRange ∧
        decodeRsp .write (encodeRsp r) = r ∧ (CmdKind.write ≠ .write → b = s.block) ∧
        m = .next ({ s with block := b }.respond r)) := by
    intro idx m b hm
    by_cases h : IndexOk idx
    · obtain ⟨n, hn, -⟩ := inRange_of_ok h
      exact .inr ⟨h, b n, .okUnit, by simp, by decide, fun hw => absurd rfl hw, by rw [hm, checkIndex, hn]⟩
    · exact .inl ⟨h, by rw [hm, checkIndex_out _ _ h]⟩
  have okRec : ∀ r : Rec, decodeRsp .recordRead (encodeRsp (.okRec r)) = .okRec r := by decide
  have okFlag : ∀ v, decodeRsp .fieldRead (encodeRsp (.okFlag v)) = .okFlag v := by decide
  cases i with
  | get idx =>
    exact read idx .recordRead _ (fun n => .okRec (s.block.record n)) (by decide) (by simp) (fun _ => okRec _)
      (by simp [exec, execGet, extract3_eq, Except.map])
  | set idx val =>
    exact write idx _ (fun n => s.block.withRecord n (maskValue val)) (by simp [exec, execSet, merge3_eq])
  | isMine idx =>
    exact read idx .fieldRead _ (fun n => .okFlag (s.block.flag n .mine)) (by decide) (by simp) (fun _ => okFlag _)
      (by simp [exec, execIsMine, fieldRead, extract1_eq, Except.map])
  | setMine idx b =>
    exact write idx _ (fun n => s.block.withFlag n .mine b) (by simp [exec, execSetMine, fieldWrite, merge1_eq])
  | isRevealed idx =>
    exact read idx .fieldRead _ (fun n => .okFlag (s.block.flag n .revealed)) (by decide) (by simp)
      (fun _ => okFlag _) (by simp [exec, execIsRevealed, fieldRead, extract1_eq, Except.map])
  | setRevealed idx b =>
    exact write idx _ (fun n => s.block.withFlag n .revealed b)
      (by simp [exec, execSetRevealed, fieldWrite, merge1_eq])
  | isFlagged idx =>
    exact read idx .fieldRead _ (fun n => .okFlag (s.block.flag n .flagged)) (by decide) (by simp)
      (fun _ => okFlag _) (by simp [exec, execIsFlagged, fieldRead, extract1_eq, Except.map])
  | setFlagged idx b =>
    exact write idx _ (fun n => s.block.withFlag n .flagged b)
      (by simp [exec, execSetFlagged, fieldWrite, merge1_eq])

/-- Why a step answers a next state: there was no event, or a reset, or a command on a block that was reset. -/
theorem step_cases {s t : State} (h : step s = .next t) :
    (s.inputs = [] ∧ t = s) ∨
    ∃ p rest, s.inputs = p :: rest ∧
      ((portEvent p = .idle ∧ t = { s with inputs := rest }) ∨
       (portEvent p = .reset ∧ t = ({ s with inputs := rest } : State).resetEvent) ∨
       ∃ cw, portEvent p = .command cw ∧ s.constructed = true ∧
         exec (decode cw) { s with inputs := rest } = .next t) := by
  unfold step serveNext at h
  split at h
  · next hin => injection h with h; exact .inl ⟨hin, h.symm⟩
  · next p rest hin =>
    refine .inr ⟨p, rest, hin, ?_⟩
    unfold serve at h
    split at h
    · next he => injection h with h; exact .inl ⟨he, h.symm⟩
    · next he => injection h with h; exact .inr (.inl ⟨he, h.symm⟩)
    · next cw he =>
      simp only [serveCommand, serveInstr] at h
      split at h
      · next hc => exact .inr (.inr ⟨cw, he, hc, h⟩)
      · cases h
    · cases h

end Sys2Proof.Machine
end

