-- ==== Sys2Proof/Laws/Board.lean ====
section
/-! SUPPORT. What an event on the array of blocks can do. -/

namespace Sys2Proof.Machine

variable (bd : Board) (k : Nat) (t : State)

@[simp] theorem setBlock_params : (bd.setBlock k t).params = bd.params := rfl
@[simp] theorem setBlock_blocks : (bd.setBlock k t).blocks = bd.blocks.set k t := rfl

/-- An event on a block that is there is that block's own. -/
theorem update_of_block {event : State → Result} {s t : State} (hs : bd.blocks[k]? = some s)
    (ht : event s = .next t) : bd.update k event = .next (bd.setBlock k t) := by
  simp [Board.update, hs, ht]

/-- Why an event on the array gives a next array. -/
theorem update_cases {event : State → Result} {bd' : Board} (h : bd.update k event = .next bd') :
    ∃ s t, bd.blocks[k]? = some s ∧ event s = .next t ∧ bd' = bd.setBlock k t := by
  unfold Board.update at h
  split at h
  · cases h
  · next s hs =>
    split at h
    · next t ht => injection h with h; exact ⟨s, t, hs, ht, h.symm⟩
    · cases h
    · cases h

end Sys2Proof.Machine
end

