-- ==== Sys2Proof/Laws/PerInstr.lean ====
section
/-! SUPPORT. The family of lemmas per instruction, named in LAWS.json: an instruction's canonical word carries the fixed
bits of its row of the opcode map (R75, R85). -/

namespace Sys2Proof.Laws.RowBits

open Sys2Proof

/-- The row of the instruction selects its word. -/
def Statement (i : Instr) : Prop := encodeWord i &&& (opRow i).mask = (opRow i).matchBits

theorem commandWord_op (op : BitVec 3) (idx : Int) (val : BitVec 8) :
    commandWord op idx val &&& 0xE000#16 = op.setWidth 16 <<< 13 := by
  refine BitVec.eq_of_getLsbD_eq fun q hq => ?_
  interval_cases q <;> simp [commandWord]

theorem get (idx : Int) : Statement (.get idx) := commandWord_op 0b000 idx 0
theorem set (idx val : Int) : Statement (.set idx val) := commandWord_op 0b001 idx _
theorem isMine (idx : Int) : Statement (.isMine idx) := commandWord_op 0b010 idx 0
theorem setMine (idx : Int) (b : Bool) : Statement (.setMine idx b) := commandWord_op 0b011 idx _
theorem isRevealed (idx : Int) : Statement (.isRevealed idx) := commandWord_op 0b100 idx 0
theorem setRevealed (idx : Int) (b : Bool) : Statement (.setRevealed idx b) := commandWord_op 0b101 idx _
theorem isFlagged (idx : Int) : Statement (.isFlagged idx) := commandWord_op 0b110 idx 0
theorem setFlagged (idx : Int) (b : Bool) : Statement (.setFlagged idx b) := commandWord_op 0b111 idx _

end Sys2Proof.Laws.RowBits
end

