-- ==== Sys2Proof/Tests/Slice0.lean ====
section
/-! SUPPORT. The model's own tests, with results taken from spec/95_test_vectors.md (the vector's name stands in each
comment), and for each statement with hypotheses a witness that meets them. -/

namespace Sys2Proof.Tests

open Sys2Proof Sys2Proof.Machine

/-- A block with the given bytes, as reset left the rest. -/
def withBytes (b0 b1 b2 : Byte) : State := { State.reset with block := ⟨b0, b1, b2⟩ }

/-- The state that the vectors call IDX: record `i` holds `i`. -/
def idxState : State := withBytes 0x88 0xC6 0xFA

/-- The bytes, the response word and the mark of a next state. -/
def shown : Result → Option (Block × Option RspWord × Bool)
  | .next t => some (t.block, t.rsp, t.faulted)
  | .fault _ => none
  | .refused _ => none

/-- One step on a command word. -/
def serveWord (s : State) (cw : CmdWord) : Option (Block × Option RspWord × Bool) :=
  shown (step { s with inputs := [presentWord cw] })

/-! ## Well-formedness: each check refuses something (R76, R77, R85) -/

theorem test_wf_index_low : (Instr.get (-17)).wf = false := by decide
theorem test_wf_index_high : (Instr.setFlagged 16 true).wf = false := by decide
theorem test_wf_value_low : (Instr.set 3 (-1)).wf = false := by decide
theorem test_wf_value_high : (Instr.set 3 256).wf = false := by decide
theorem test_wf_bounds : (Instr.get (-16)).wf = true ∧ (Instr.set 15 255).wf = true := by decide

/-- 95_test_vectors.md, after V-E21: `GET(16)` and `SET(-2^31, 1)` have no command word. -/
theorem test_encode_rejects :
    encode (.get 16) = .error .indexUnencodable ∧ encode (.set (-2147483648) 1) = .error .indexUnencodable ∧
    encode (.set 0 256) = .error .valueUnencodable := by decide

/-! ## Words written out bit by bit from the encoding patterns of R75 (V-C) -/

theorem test_decode_get : decode 0b000_00101_00000000#16 = .get 5 := by decide
theorem test_decode_get_negative : decode 0b000_10000_00000000#16 = .get (-16) := by decide
theorem test_decode_set : decode 0b001_00111_00001000#16 = .set 7 8 := by decide
theorem test_decode_isMine : decode 0b010_00000_00000001#16 = .isMine 0 := by decide
theorem test_decode_setMine : decode 0b011_00101_00000010#16 = .setMine 5 false := by decide
theorem test_decode_isRevealed : decode 0b100_01010_10101010#16 = .isRevealed 10 := by decide
theorem test_decode_setRevealed : decode 0b101_00101_00000001#16 = .setRevealed 5 true := by decide
theorem test_decode_isFlagged : decode 0b110_00010_00000000#16 = .isFlagged 2 := by decide
theorem test_decode_setFlagged : decode 0b111_11111_11111111#16 = .setFlagged (-1) true := by decide

/-- V-C5, V-C12, V-C14, V-C20: the canonical words. -/
theorem test_encode_words :
    encode (.set 7 255) = .ok 0x27FF ∧ encode (.setFlagged 7 true) = .ok 0xE701 ∧ encode (.get (-1)) = .ok 0x1F00 ∧
    encode (.set (-1) 255) = .ok 0x3FFF := by decide

/-- The decoder by the table's numbering, and what is no 16-bit word. -/
theorem test_decodeTableWord :
    decodeTableWord 16 0xE000 = some (.setFlagged 0 false) ∧ decodeTableWord 16 0x10000 = none ∧
    decodeTableWord 17 0x2205 = none := by decide

/-! ## One step of each instruction -/

/-- V-G6 and V-G14: a straddling record, and a zero record among ones. -/
theorem test_get_straddle :
    serveWord idxState 0x0500 = some (⟨0x88, 0xC6, 0xFA⟩, some 5, false) ∧
    serveWord (withBytes 0x3F 0xFE 0xFF) 0x0200 = some (⟨0x3F, 0xFE, 0xFF⟩, some 0, false) := by decide

/-- V-G8: the last record lies in `B[2]` alone. -/
theorem test_get_last : serveWord idxState 0x0700 = some (⟨0x88, 0xC6, 0xFA⟩, some 7, false) := by decide

/-- V-S24 and V-S15: both bytes of a straddling record. -/
theorem test_set_straddle :
    serveWord idxState 0x2205 = some (⟨0x48, 0xC7, 0xFA⟩, some 0, false) ∧
    serveWord (withBytes 0xFF 0xFF 0xFF) 0x2500 = some (⟨0xFF, 0x7F, 0xFC⟩, some 0, false) := by decide

/-- V-S19 and V-S20: masking is truncation. -/
theorem test_set_masks :
    serveWord idxState 0x2308 = some (⟨0x88, 0xC0, 0xFA⟩, some 0, false) ∧
    serveWord idxState 0x25FA = some (⟨0x88, 0x46, 0xF9⟩, some 0, false) := by decide

/-- R102: a negative value is taken by its Euclidean remainder, so -1 writes 7 (V-S9's bytes). -/
theorem test_set_negative_value :
    shown (exec (.set 7 (-1)) State.reset) = some (⟨0x00, 0x00, 0xE0⟩, some 0, false) := by decide

/-- V-F5 and V-F14. -/
theorem test_isMine :
    serveWord (withBytes 0x00 0x80 0x00) 0x4500 = some (⟨0x00, 0x80, 0x00⟩, some 1, false) ∧
    serveWord idxState 0x4200 = some (⟨0x88, 0xC6, 0xFA⟩, some 0, false) := by decide

/-- V-F6 and V-F10: the bit lies in the byte after the record's first. -/
theorem test_isRevealed :
    serveWord (withBytes 0x00 0x00 0x01) 0x8500 = some (⟨0x00, 0x00, 0x01⟩, some 1, false) ∧
    serveWord (withBytes 0xFF 0xFF 0xFE) 0x8500 = some (⟨0xFF, 0xFF, 0xFE⟩, some 0, false) := by decide

/-- V-F3 and V-F9: likewise. -/
theorem test_isFlagged :
    serveWord (withBytes 0x00 0x01 0x00) 0xC200 = some (⟨0x00, 0x01, 0x00⟩, some 1, false) ∧
    serveWord (withBytes 0xFF 0xFE 0xFF) 0xC200 = some (⟨0xFF, 0xFE, 0xFF⟩, some 0, false) := by decide

/-- V-W9 and V-W15: a clear, and a word whose value field is not zero but whose operand is false. -/
theorem test_setMine :
    serveWord (withBytes 0xFF 0xFF 0xFF) 0x6700 = some (⟨0xFF, 0xFF, 0xDF⟩, some 0, false) ∧
    serveWord (withBytes 0xFF 0xFF 0xFF) 0x63FE = some (⟨0xFF, 0xFD, 0xFF⟩, some 0, false) := by decide

/-- V-W3 and V-W10. -/
theorem test_setRevealed :
    serveWord State.reset 0xA501 = some (⟨0x00, 0x00, 0x01⟩, some 0, false) ∧
    serveWord idxState 0xA401 = some (⟨0x88, 0xE6, 0xFA⟩, some 0, false) := by decide

/-- V-W1 and V-W11. -/
theorem test_setFlagged :
    serveWord State.reset 0xE201 = some (⟨0x00, 0x01, 0x00⟩, some 0, false) ∧
    serveWord idxState 0xE400 = some (⟨0x88, 0x86, 0xFA⟩, some 0, false) := by decide

/-- V-E1 to V-E16: every command on index 8 and on index -1. -/
theorem test_outOfRange :
    [0x0800, 0x2807, 0x4800, 0x8800, 0xC800, 0x6801, 0xA801, 0xE801,
     0x1F00, 0x3F07, 0x5F00, 0x9F00, 0xDF00, 0x7F01, 0xBF01, 0xFF01].map (serveWord idxState) =
    List.replicate 16 (some (⟨0x88, 0xC6, 0xFA⟩, some 8, true)) := by decide

/-- After V-E21: integers that no command word carries are out of range too. -/
theorem test_outOfRange_abstract :
    [Instr.get 16, .get (-17), .get 256, .get 2147483648, .set (-2147483648) 1].map
      (fun i => shown (exec i idxState)) = List.replicate 5 (some (⟨0x88, 0xC6, 0xFA⟩, some 8, true)) := by decide

/-! ## Events, the assembler and the array -/

/-- R155: a reset in the middle of a sequence (P2, event 13). -/
theorem test_reset_event :
    shown (step { withBytes 0x00 0x80 0x02 with inputs := [presentReset] }) = some (⟨0, 0, 0⟩, none, false) := by decide

/-- R157 and R158: what is refused. -/
theorem test_refusals :
    step { State.powerUp ⟨1, 2, 3⟩ with inputs := [presentWord 0x0000] } = .refused .beforeFirstReset ∧
    step { State.reset with inputs := [⟨true, true, 0x0000⟩] } = .refused .overlappingEvents := ⟨rfl, rfl⟩

/-- A word placed as the next event runs as the first instruction after reset (V-S1). -/
theorem test_withFetchWord :
    shown (step (State.reset.withFetchWord 16 0x2205)) = some (⟨0x40, 0x01, 0x00⟩, some 0, false) := by decide

/-- R87, lines of P1, P4 and P5. -/
theorem test_assembler_lines :
    assembleLine "SET 2, 0b101".toList = .ok (some (none, presentWord 0x2205)) ∧
    assembleLine "SET 7, 0xFF ; masks".toList = .ok (some (none, presentWord 0x27FF)) ∧
    assembleLine "IS_FLAGGED -16".toList = .ok (some (none, presentWord 0xD000)) ∧
    assembleLine "SET_MINE 8, true".toList = .ok (some (none, presentWord 0x6801)) ∧
    assembleLine "@1: SET 4, 1".toList = .ok (some (some 1, presentWord 0x2401)) ∧
    assembleLine "@0: RESET".toList = .ok (some (some 0, presentReset)) :=
  ⟨by decide, by decide, by decide, by decide, by decide, by decide⟩

/-- R88 and R87: what is rejected. -/
theorem test_assembler_rejects :
    assembleLine "GET 16".toList = .error (.unencodable .indexUnencodable) ∧
    assembleLine "SET 0, 256".toList = .error (.unencodable .valueUnencodable) ∧
    assembleLine "SET 0, -1".toList = .error .badOperands ∧
    assembleLine "get 0".toList = .error .badMnemonic ∧
    assembleLine "SET_MINE 0, 2".toList = .error .badOperands ∧
    assembleLine "@ 1: GET 0".toList = .error .badBlockPrefix :=
  ⟨by decide, by decide, by decide, by decide, by decide, by decide⟩

/-- Two blocks as in P5 (TOTAL_CELLS = 13). -/
def twoBlocks : Board := ⟨⟨13, 4, by decide⟩, [State.reset, State.reset], by decide⟩

/-- The bytes of each block of a next board. -/
def boardBytes : BoardResult → Option (List Block)
  | .next bd => some (bd.blocks.map (·.block))
  | .fault _ => none
  | .refused _ => none

/-- P5, events 3 and 5 by global index, and U11's refusal. -/
theorem test_board :
    boardBytes (twoBlocks.access 7 (.set 0 3)) = some [⟨0x00, 0x00, 0x60⟩, ⟨0, 0, 0⟩] ∧
    boardBytes (twoBlocks.access 12 (.set 0 1)) = some [⟨0, 0, 0⟩, ⟨0x00, 0x10, 0x00⟩] ∧
    boardBytes (twoBlocks.present 1 (presentWord 0x2006)) = some [⟨0, 0, 0⟩, ⟨0x06, 0x00, 0x00⟩] := by decide

theorem test_board_refuses :
    twoBlocks.access 13 (.get 0) = .refused (.noSuchCell 13) ∧
    twoBlocks.present 2 presentReset = .refused (.noSuchBlock 2) := ⟨rfl, rfl⟩

/-- U11: a global index of GIDX_W bits at TOTAL_CELLS is refused, the last cell (P5, event 8) is not. -/
theorem test_board_accessWord :
    twoBlocks.accessWord 13#4 (.get 0) = .refused (.noSuchCell 13) ∧
    boardBytes (twoBlocks.accessWord 12#4 (.get 0)) = some [⟨0, 0, 0⟩, ⟨0, 0, 0⟩] := ⟨rfl, by decide⟩

/-- X13: instances of the mapping and of the block count. -/
theorem test_mapping :
    [0, 7, 8, 13, 1499999999].map (fun g => (blockIndex g, localIndex g)) =
      [(0, 0), (0, 7), (1, 0), (1, 5), (187499999, 7)] ∧
    [0, 1, 8, 9, 20, 1500000000].map nBlocks = [0, 1, 1, 2, 3, 187500000] ∧
    [9, 13, 20].map tailRecords = [7, 3, 4] := by decide

/-! ## Witnesses: a state and operands that meet the hypotheses of each statement that has any -/

/-- A block that is about to serve one sample. -/
def waiting (p : PortIn) : State := { idxState with inputs := [p] }

/-- The state after a command that the next witnesses start from. -/
def afterSet : State :=
  { withBytes 0x48 0xC7 0xFA with rsp := some 0x0#4, responses := [.okUnit] }

/-- The state after a command out of range. -/
def afterError : State :=
  { idxState with rsp := some 0x8#4, responses := [.errOutOfRange], faulted := true }

theorem witness_ResetEventZeroesTheBlock : (waiting presentReset).inputs = presentReset :: [] := rfl

/-- The two ends of the index on each side, and the state of the worked example. -/
theorem witness_GetReadsItsRecord :
    (0x05FF#16 &&& 0xE000#16 = 0x0000#16) ∧ ((-1 : Int) < 0 ∨ (7 : Int) < -1) ∧ ((8 : Int) < 0 ∨ (7 : Int) < 8) ∧
    (withBytes 0x00 0x80 0x07).block = ⟨0x00, 0x80, 0x07⟩ := by decide

/-- Two states with the same record 5 and other bytes everywhere else. -/
theorem witness_GetAnswersTheRecordAndNothingElse :
    (withBytes 0x00 0x80 0x02).block.record 5 = (withBytes 0xFF 0xFF 0xFE).block.record 5 ∧
    withBytes 0x00 0x80 0x02 ≠ withBytes 0xFF 0xFF 0xFE := by decide

/-- A straddling record has a second byte, index 7 none; bytes that are neither. -/
theorem witness_SetWritesItsRecord :
    (0x3FFF#16 &&& 0xE000#16 = 0x2000#16) ∧
    (2 * 3 % 8 > 5) ∧ ¬ (7 * 3 % 8 > 5) ∧ (2 ≠ 2 * 3 / 8 ∧ ¬ (2 * 3 % 8 > 5 ∧ 2 = 2 * 3 / 8 + 1)) ∧
    ((-1 : Int) < 0 ∨ (7 : Int) < -1) ∧ ((8 : Int) < 0 ∨ (7 : Int) < 8) ∧
    State.reset.block = ⟨0x00, 0x00, 0x00⟩ := by decide

theorem witness_SetMasksItsValue :
    7 < 8 ∧ (0x27FF#16 &&& 0xE000#16 = 0x2000#16) ∧ IndexOk (decode 0x27FF#16).idx ∧
    (((7 : Fin 8).val : Nat) : Int) = (decode 0x27FF#16).idx := by decide

/-- V-S24, a straddling write; a span bit on each side of the record, a byte it leaves, another record. -/
theorem witness_SetChangesNoOtherRecord :
    exec (.set (2 : Fin 8).val 5) idxState = .next afterSet ∧
    5 < 3 * 2 ∧ 3 * 2 + 2 < 9 ∧ (2 ≠ (adec 2).byteIndex ∧ ¬ ((adec 2).straddle = true ∧ 2 = (adec 2).byteIndex + 1)) ∧
    (1 : Fin 8) ≠ 2 := ⟨rfl, by decide⟩

/-- Between the write and the read of record 2: a write and a read of others, and one out of range. -/
theorem witness_SetThenGetReturnsTheValue :
    ∀ c ∈ [Instr.set 1 7, .isFlagged 3, .get 8], c.idx ≠ (2 : Fin 8).val := by decide

theorem witness_FieldReadsAnswerTheirBit :
    (0x4500#16 &&& 0xE000#16 = 0x4000#16) ∧ (0x8AAA#16 &&& 0xE000#16 = 0x8000#16) ∧
    (0xC200#16 &&& 0xE000#16 = 0xC000#16) ∧ ((-1 : Int) < 0 ∨ (7 : Int) < -1) ∧ ((8 : Int) < 0 ∨ (7 : Int) < 8) ∧
    (withBytes 0x00 0x80 0x07).block = ⟨0x00, 0x80, 0x07⟩ ∧
    (withBytes 0x40 0x01 0x00).block = ⟨0x40, 0x01, 0x00⟩ := by decide

theorem witness_FieldWritesWriteTheirBit :
    (0x6502#16 &&& 0xE000#16 = 0x6000#16) ∧ (0xA501#16 &&& 0xE000#16 = 0xA000#16) ∧
    (0xFFFF#16 &&& 0xE000#16 = 0xE000#16) ∧ (0 ≠ (3 * 2 + fieldOffset .flagged) / 8) ∧
    ((-1 : Int) < 0 ∨ (7 : Int) < -1) ∧ ((8 : Int) < 0 ∨ (7 : Int) < 8) ∧
    State.reset.block = ⟨0x00, 0x00, 0x00⟩ ∧ (withBytes 0x00 0x80 0x00).block = ⟨0x00, 0x80, 0x00⟩ ∧
    (withBytes 0x00 0x80 0x01).block = ⟨0x00, 0x80, 0x01⟩ := by decide

/-- V-W11; the span bits beside the written one, the other flags, another record, another byte. -/
theorem witness_FieldWriteChangesOneBit :
    exec (fieldWriteInstr .flagged (4 : Fin 8).val false) idxState =
      .next { withBytes 0x88 0x86 0xFA with rsp := some 0x0#4, responses := [.okUnit] } ∧
    13 ≠ 3 * 4 + fieldOffset .flagged ∧ 15 ≠ 3 * 4 + fieldOffset .flagged ∧ Field.mine ≠ .flagged ∧
    (5 : Fin 8) ≠ 4 ∧ 2 ≠ (adec1 4 .flagged).byteIndex := ⟨rfl, by decide⟩

theorem witness_ThreeFieldWritesEqualOneSet :
    [Instr.setFlagged (5 : Fin 8).val true, .setMine (5 : Fin 8).val true, .setRevealed (5 : Fin 8).val false].Perm
      [.setMine (5 : Fin 8).val true, .setRevealed (5 : Fin 8).val false, .setFlagged (5 : Fin 8).val true] ∧
    State.reset.block = ⟨0x00, 0x00, 0x00⟩ := by decide

/-- In range and out of range. -/
theorem witness_FieldReadIsGetAndBitTest :
    exec (.get 5) idxState = .next { idxState with rsp := some 0x5#4, responses := [.okRec 5] } ∧
    [Response.okRec 5] = idxState.responses ++ [.okRec 5] ∧
    exec (.get 8) idxState = .next afterError ∧
    afterError.responses = idxState.responses ++ [.errOutOfRange] := ⟨rfl, rfl, rfl, rfl⟩

theorem witness_WritesToDifferentBitsCommute :
    (2 : Fin 8) ≠ 5 ∧ ((2 : Fin 8), Field.mine) ≠ (2, .flagged) ∧ ((2 : Fin 8), Field.flagged) ≠ (3, .flagged) := by
  decide

/-- The indices where the clauses meet. -/
theorem witness_OutOfRangeExactlyOutsideTheEightRecords :
    ((Instr.get (-1)).idx < 0 ∨ 8 ≤ (Instr.get (-1)).idx) ∧ ((Instr.set 8 7).idx < 0 ∨ 8 ≤ (Instr.set 8 7).idx) ∧
    (0 ≤ (Instr.isMine 0).idx ∧ (Instr.isMine 0).idx < 8) ∧
    (0 ≤ (Instr.setMine 7 true).idx ∧ (Instr.setMine 7 true).idx < 8) := by decide

theorem witness_ErrorsDoNotStick :
    ¬ IndexOk (Instr.set 8 7).idx ∧ exec (.set 8 7) idxState = .next afterError ∧ afterError.faulted = true ∧
    step { afterError with inputs := [presentReset] } =
      .next { afterError with block := ⟨0x00, 0x00, 0x00⟩, rsp := none } := ⟨by decide, rfl, rfl, rfl⟩

theorem witness_ReadsHaveNoSideEffects :
    (Instr.get 5).kind ≠ .write ∧ ∀ c ∈ [Instr.isMine 5, .get 8], c.kind ≠ .write := by decide

theorem witness_WritesAreIdempotent : (Instr.set 2 5).kind = .write ∧ (Instr.setMine 8 true).kind = .write := by decide

theorem witness_FlagsChangeOnlyByTheirOwnWrites :
    exec (.set 2 5) idxState = .next afterSet ∧
    afterSet.block.flag 2 .mine ≠ idxState.block.flag 2 .mine ∧
    (withBytes 0x48 0xC7 0xFA).block = afterSet.block := ⟨rfl, by decide, rfl⟩

theorem witness_ResponsesDependOnTheBytesAlone :
    afterError.block = idxState.block ∧ afterError ≠ idxState := by decide

/-- Offsets at the guard's two sides. -/
theorem witness_MaskShiftValues : (adec 7).bitOffset ≤ 5 ∧ (adec 2).bitOffset > 5 ∧ (adec 5).bitOffset > 5 := by decide

theorem witness_SpanIsTheThreeBytesInOrder :
    23 < 24 ∧ (Block.ofSpan 0xFAC688).span = idxState.block.span := by decide

theorem witness_DecodeFollowsTheOpcodeMap :
    (waiting (presentWord 0x2205)).constructed = true ∧
    (waiting (presentWord 0x2205)).inputs = presentWord 0x2205 :: [] := ⟨rfl, rfl⟩

theorem witness_OpcodeRowsPartitionTheWords :
    decode 0x27FF = .set 7 255 ∧ decode 0x6502 = fieldWriteInstr .mine 5 false := by decide

/-- Words that differ in the ignored bits alone (V-G20, V-W14). -/
theorem witness_IgnoredOperandBitsHaveNoEffect :
    ((decode 0x0500).kind ≠ .write ∧ 0x00FF#16 &&& 0xFF00#16 = 0#16) ∧
    (decode 0x2205 = .set 2 5 ∧ 0x00F8#16 &&& 0xFF07#16 = 0#16) ∧
    (decode 0x6301 = fieldWriteInstr .mine 3 true ∧ 0x00FE#16 &&& 0xFF01#16 = 0#16) ∧
    encode (.get 5) = .ok 0x0500 ∧ (Instr.get 5).kind ≠ .write ∧
    encode (.setMine 5 true) = .ok 0x6501 ∧ Instr.setMine 5 true = fieldWriteInstr .mine 5 true := by decide

/-- Both ends of both fields. -/
theorem witness_DecodeOfEncodeIsTheCommand :
    [Instr.get (-16), .get 15, .set (-16) 0, .set 15 255, .isMine 15, .setMine (-16) true, .isRevealed 0,
     .setRevealed 7 false, .isFlagged (-1), .setFlagged 8 true].all Instr.wf = true := by decide

/-- The values on each side of every bound. -/
theorem witness_AssemblerRejectsExactlyTheUnencodable :
    ((Instr.get (-17)).idx < -16) ∧ (15 < (Instr.setMine 16 true).idx) ∧
    ((-16 : Int) ≤ -16 ∧ (-16 : Int) ≤ 15 ∧ ((-1 : Int) < 0 ∨ (255 : Int) < -1)) ∧
    ((-16 : Int) ≤ 15 ∧ (15 : Int) ≤ 15 ∧ ((256 : Int) < 0 ∨ (255 : Int) < 256)) ∧
    ((-16 : Int) ≤ 0 ∧ (0 : Int) ≤ 15 ∧ (0 : Int) ≤ 255 ∧ (255 : Int) ≤ 255) ∧
    (-16 ≤ (Instr.get 15).idx ∧ (Instr.get 15).idx ≤ 15) := by decide

theorem witness_AssemblerRejectsExactlyTheUnencodable_not_set : ∀ idx val, Instr.get 15 ≠ .set idx val := by simp

theorem witness_ResponseWordIsReadBack : (0x8#4).getLsbD 3 = true ∧ (0x7#4).getLsbD 3 = false := by decide

theorem witness_StepRunsTheDecodedCommand :
    (waiting (presentWord 0x0500)).constructed = true ∧
    (waiting (presentWord 0x0500)).inputs = presentWord 0x0500 :: [] := ⟨rfl, rfl⟩

theorem witness_EventsWithoutACommand :
    State.reset.inputs = [] ∧ (waiting ⟨false, false, 0⟩).inputs = ⟨false, false, 0⟩ :: [] ∧
    (waiting presentReset).inputs = presentReset :: [] ∧ presentReset.rst = true ∧ presentReset.cmdValid = false :=
  ⟨rfl, rfl, rfl, rfl, rfl⟩

theorem witness_ResetAndCommandNeverCoincide : (waiting ⟨true, true, 0x0500⟩).inputs = ⟨true, true, 0x0500⟩ :: [] := rfl

/-- A command, a reset and an idle sample each give a next state. -/
theorem witness_OneResponsePerCommandEvent :
    step (waiting (presentWord 0x2205)) = .next afterSet ∧
    step (waiting presentReset) = .next State.reset ∧
    step (waiting ⟨false, false, 0⟩) = .next idxState := ⟨rfl, rfl, rfl⟩

theorem witness_OnlyWritesAndResetChangeTheBytes :
    step (waiting (presentWord 0x2205)) = .next afterSet ∧ afterSet.block ≠ (waiting (presentWord 0x2205)).block :=
  ⟨rfl, by decide⟩

/-- A run with a reset, an idle sample, commands, and one of them out of range. -/
theorem witness_DisciplinedRunsComplete :
    ∀ p ∈ [presentReset, presentWord 0x2205, ⟨false, false, 0⟩, presentWord 0x0800], p.disciplined = true := by decide

/-- A state with a response standing and the mark set. -/
theorem witness_EveryStepKeepsTheInvariant :
    (waiting (presentWord 0x2205)).Inv ∧ step (waiting (presentWord 0x2205)) = .next afterSet ∧ afterError.Inv ∧
    step afterError = .next afterError := by
  refine ⟨⟨?_, ?_, ?_⟩, rfl, ⟨?_, ?_, ?_⟩, rfl⟩
  · intro w h; cases h
  · decide
  · intro h; cases h
  · intro w h; cases h; exact ⟨.errOutOfRange, rfl, rfl⟩
  · decide
  · intro h; cases h

theorem witness_CommandsLeaveTheHostSide :
    exec (.set 2 5) (waiting presentReset) = .next { afterSet with inputs := [presentReset] } ∧
    exec (.get 8) idxState = .next afterError := ⟨rfl, rfl⟩

theorem witness_BlockCountIsTheCeiling : 12 < 13 ∧ 0 < 1 := by decide

/-- The last cell of the first block, and the last cell of all. -/
theorem witness_RoutedAccessIsInRange :
    7 < twoBlocks.params.totalCells ∧ twoBlocks.blocks[blockIndex 7]? = some State.reset ∧
    12 < twoBlocks.params.totalCells ∧ twoBlocks.blocks[blockIndex 12]? = some State.reset ∧
    State.reset.constructed = true := by decide

/-- The last cell and the first index past it, the first block past the array, parameters of the source's scale. -/
theorem witness_GlobalIndicesFitTheirWidth :
    12 < twoBlocks.params.totalCells ∧ twoBlocks.params.totalCells ≤ 13 ∧ nBlocks twoBlocks.params.totalCells ≤ 2 ∧
    1500000000 ≤ (⟨1500000000, 31, by decide⟩ : Config.HostParams).totalCells := by decide

theorem witness_BlocksAreIndependent :
    twoBlocks.present 1 presentReset = .next twoBlocks ∧ 0 ≠ 1 ∧
    (⟨⟨16, 4, by decide⟩, [afterError, State.reset], by decide⟩ : Board).blocks[1]? = twoBlocks.blocks[1]? := ⟨rfl, by decide, rfl⟩

end Sys2Proof.Tests
end

/-! # The family of spec/10_state.md: the bytes, the flags, and what changes them -/

namespace Sys2Proof.Machine

/-! ## The 24-bit view (R22) -/

@[simp] theorem ofSpan_span (b : Block) : Block.ofSpan b.span = b := block_eq_of_span (span_ofSpan b.span)

theorem span_toNat (b : Block) :
    b.span.toNat = b.b0.toNat + 256 * b.b1.toNat + 65536 * b.b2.toNat := by
  have h0 := b.b0.isLt
  have h1 := b.b1.isLt
  have h2 := b.b2.isLt
  have p0 : (b.b0.setWidth 24).toNat = b.b0.toNat := by
    rw [BitVec.toNat_setWidth]; omega
  have p1 : (b.b1.setWidth 24 <<< 8).toNat = 2 ^ 8 * b.b1.toNat := by
    rw [BitVec.toNat_shiftLeft, BitVec.toNat_setWidth, Nat.shiftLeft_eq]; omega
  have p2 : (b.b2.setWidth 24 <<< 16).toNat = 2 ^ 16 * b.b2.toNat := by
    rw [BitVec.toNat_shiftLeft, BitVec.toNat_setWidth, Nat.shiftLeft_eq]; omega
  calc b.span.toNat
      = b.b0.toNat ||| 2 ^ 8 * b.b1.toNat ||| 2 ^ 16 * b.b2.toNat := by
        rw [Block.span, BitVec.toNat_or, BitVec.toNat_or, p0, p1, p2]
    _ = 2 ^ 16 * b.b2.toNat + (2 ^ 8 * b.b1.toNat + b.b0.toNat) := by
        rw [Nat.or_comm b.b0.toNat, ← Nat.two_pow_add_eq_or_of_lt h0, Nat.or_comm,
          ← Nat.two_pow_add_eq_or_of_lt (by omega)]
    _ = b.b0.toNat + 256 * b.b1.toNat + 65536 * b.b2.toNat := by omega

theorem byteAt_eq_of_readByte {b : Block} {k : Nat} {x : Byte} (h : b.readByte k = .ok x) : b.byteAt k = x := by
  rw [Block.byteAt, h]

theorem span_getLsbD (b : Block) {p : Nat} (hp : p < 24) :
    b.span.getLsbD p = (b.byteAt (p / 8)).getLsbD (p % 8) := by
  obtain ⟨x, hx, hbits⟩ := readByte_span b (k := p / 8) (by omega)
  rw [byteAt_eq_of_readByte hx, hbits _ (Nat.mod_lt _ (by omega)), Nat.div_add_mod]

/-- Settles O29: the sum is `span_toNat`, the slices are those of `Block.ofSpan`, which undoes `Block.span`. -/
theorem spanIsTheThreeBytesInOrder : Obligations.SpanIsTheThreeBytesInOrder := fun b =>
  ⟨span_toNat b, congrArg Block.b0 (ofSpan_span b), congrArg Block.b1 (ofSpan_span b),
    congrArg Block.b2 (ofSpan_span b), fun _ hp => span_getLsbD b hp, fun _ hc => block_eq_of_span hc⟩

/-! ## Reset (R31, R159) -/

theorem reset_span : State.reset.block.span = 0 := by decide

@[simp] theorem reset_record (i : Fin 8) : State.reset.block.record i = 0 := by
  rw [Block.record, reset_span]
  exact BitVec.extractLsb'_zero

@[simp] theorem reset_flag (i : Fin 8) (f : Field) : State.reset.block.flag i f = false := by
  rw [Block.flag, reset_span]
  exact BitVec.getLsbD_zero

/-- Settles O1: the fields are the literals of `State.reset`; records and flags are read off its zero span. -/
theorem resetLeavesEveryRecordZero : Obligations.ResetLeavesEveryRecordZero :=
  ⟨rfl, rfl, rfl, reset_span, reset_record, reset_flag, rfl, rfl⟩

/-! ## The commands by their four forms: GET, SET, a field read, a field write -/

/-- Case analysis of a command by its form, the three flags taken together (R110). -/
theorem instr_form_cases {motive : Instr → Prop} (get : ∀ idx, motive (.get idx))
    (set : ∀ idx val, motive (.set idx val)) (fieldRead : ∀ f idx, motive (fieldReadInstr f idx))
    (fieldWrite : ∀ f idx v, motive (fieldWriteInstr f idx v)) : ∀ i, motive i
  | .get idx => get idx
  | .set idx val => set idx val
  | .isMine idx => fieldRead .mine idx
  | .setMine idx v => fieldWrite .mine idx v
  | .isRevealed idx => fieldRead .revealed idx
  | .setRevealed idx v => fieldWrite .revealed idx v
  | .isFlagged idx => fieldRead .flagged idx
  | .setFlagged idx v => fieldWrite .flagged idx v

@[simp] theorem fieldReadInstr_idx (f : Field) (idx : Int) : (fieldReadInstr f idx).idx = idx := by
  cases f <;> rfl

@[simp] theorem fieldWriteInstr_idx (f : Field) (idx : Int) (v : Bool) : (fieldWriteInstr f idx v).idx = idx := by
  cases f <;> rfl

section
variable (s : State) (i : Fin 8) (f : Field)

theorem exec_get_fin : exec (.get i.val) s = .next (s.respond (.okRec (s.block.record i))) := by
  simp [exec, execGet, extract3_eq, Except.map]

theorem exec_set_fin (val : Int) : exec (.set i.val val) s =
    .next ({ s with block := s.block.withRecord i (maskValue val) }.respond .okUnit) := by
  simp [exec, execSet, merge3_eq]

theorem exec_fieldReadInstr (idx : Int) : exec (fieldReadInstr f idx) s = fieldRead f idx s := by
  cases f <;> rfl

theorem exec_fieldWriteInstr (idx : Int) (v : Bool) :
    exec (fieldWriteInstr f idx v) s = fieldWrite f idx v s := by
  cases f <;> rfl

theorem exec_fieldRead_fin :
    exec (fieldReadInstr f i.val) s = .next (s.respond (.okFlag (s.block.flag i f))) := by
  simp [exec_fieldReadInstr, fieldRead, extract1_eq, Except.map]

theorem exec_fieldWrite_fin (v : Bool) : exec (fieldWriteInstr f i.val v) s =
    .next ({ s with block := s.block.withFlag i f v }.respond .okUnit) := by
  simp [exec_fieldWriteInstr, fieldWrite, merge1_eq]

end

theorem exec_out {i : Instr} (h : ¬ IndexOk i.idx) (s : State) : exec i s = .next s.outOfRange := by
  obtain ⟨-, he⟩ | ⟨hok, -⟩ := exec_cases s i
  · exact he
  · exact absurd hok h

/-- In range, the new bytes and the response depend on the command and the bytes alone. -/
theorem exec_in_range_determined_by_block {i : Instr} {n : Fin 8} (hn : i.idx = n.val) (b : Block) :
    ∃ b' r, ∀ s : State, s.block = b → exec i s = .next ({ s with block := b' }.respond r) := by
  cases i using instr_form_cases with
  | get idx =>
    obtain rfl : idx = n.val := hn
    exact ⟨b, .okRec (b.record n), by rintro s rfl; exact exec_get_fin s n⟩
  | set idx val =>
    obtain rfl : idx = n.val := hn
    exact ⟨b.withRecord n (maskValue val), .okUnit, by rintro s rfl; exact exec_set_fin s n val⟩
  | fieldRead f idx =>
    obtain rfl : idx = n.val := by simpa using hn
    exact ⟨b, .okFlag (b.flag n f), by rintro s rfl; exact exec_fieldRead_fin s n f⟩
  | fieldWrite f idx v =>
    obtain rfl : idx = n.val := by simpa using hn
    exact ⟨b.withFlag n f v, .okUnit, by rintro s rfl; exact exec_fieldWrite_fin s n f v⟩

/-- The new bytes, the response and whether the mark is set depend on the command and the bytes alone (R21). -/
theorem exec_determined_by_block (i : Instr) (b : Block) : ∃ b' r e, ∀ s : State, s.block = b →
    exec i s = .next { ({ s with block := b' }.respond r) with faulted := s.faulted || e } := by
  by_cases hok : IndexOk i.idx
  · obtain ⟨n, -, hn⟩ := inRange_of_ok hok
    obtain ⟨b', r, h⟩ := exec_in_range_determined_by_block hn b
    refine ⟨b', r, false, fun s hs => ?_⟩
    rw [h s hs, Bool.or_false]
    rfl
  · refine ⟨b, .errOutOfRange, true, ?_⟩
    rintro s rfl
    rw [exec_out hok, Bool.or_true]
    rfl

/-! ## Who changes the bytes, and who changes a flag (R26, R32) -/

theorem exec_block_changed {i : Instr} {s t : State} (h : exec i s = .next t) (hne : t.block ≠ s.block) :
    IndexOk i.idx ∧ i.kind = .write := by
  obtain ⟨-, he⟩ | ⟨hok, b, r, -, -, hread, he⟩ := exec_cases s i <;>
    obtain rfl := Host.Outcome.next.inj (he.symm.trans h)
  · exact absurd (outOfRange_block s) hne
  · exact ⟨hok, by_contra fun hk => hne (hread hk)⟩

/-- Settles O45: by what a step can do; an idle sample and the end of the samples keep the bytes, and a command that
changes them is a write in range. -/
theorem onlyWritesAndResetChangeTheBytes : Obligations.OnlyWritesAndResetChangeTheBytes := by
  intro s t h hne
  obtain ⟨-, rfl⟩ | ⟨p, rest, hin, ⟨-, rfl⟩ | ⟨he, -⟩ | ⟨cw, he, -, hx⟩⟩ := step_cases h
  · exact absurd rfl hne
  · exact absurd rfl hne
  · exact ⟨p, rest, hin, .inl he⟩
  · exact ⟨p, rest, hin, .inr ⟨cw, he, exec_block_changed hx hne⟩⟩

theorem exec_flag_changed {i : Instr} {s t : State} {j : Fin 8} {f : Field} (h : exec i s = .next t)
    (hne : t.block.flag j f ≠ s.block.flag j f) :
    (∃ val, i = .set j.val val) ∨ i = fieldWriteInstr f j.val (!s.block.flag j f) := by
  obtain ⟨hok, hwrite⟩ := exec_block_changed h fun hb => hne (by rw [hb])
  obtain ⟨n, -, hn⟩ := inRange_of_ok hok
  cases i using instr_form_cases with
  | get idx => cases hwrite
  | fieldRead g idx => cases g <;> cases hwrite
  | set idx val =>
    obtain rfl : idx = n.val := hn
    obtain rfl := Host.Outcome.next.inj ((exec_set_fin s n val).symm.trans h)
    rw [respond_block, flag_withRecord] at hne
    obtain rfl : j = n := by_contra fun hjn => hne (if_neg hjn)
    exact .inl ⟨val, rfl⟩
  | fieldWrite g idx v =>
    obtain rfl : idx = n.val := by simpa using hn
    obtain rfl := Host.Outcome.next.inj ((exec_fieldWrite_fin s n g v).symm.trans h)
    rw [respond_block, flag_withFlag] at hne
    obtain ⟨rfl, rfl⟩ : j = n ∧ f = g := by_contra fun hjf => hne (if_neg hjf)
    rw [if_pos ⟨rfl, rfl⟩] at hne
    exact .inr (by rw [Bool.eq_not_of_ne hne])

/-- SET with 7 sets every flag and SET with 0 clears every flag (R24, R102). -/
theorem recordFlag_maskValue_seven_or_zero (v : Bool) (g : Field) :
    recordFlag (maskValue (if v then 7 else 0)) g = v := by
  cases v <;> cases g <;> decide

/-- Settles O24: who changes a flag is `exec_flag_changed`; the writes and reads of a flag are the commands' equations;
what follows a command is answered from its bytes by `exec_determined_by_block`. -/
theorem flagsChangeOnlyByTheirOwnWrites : Obligations.FlagsChangeOnlyByTheirOwnWrites := by
  refine ⟨fun i s t j f h hne => exec_flag_changed h hne, fun s j f v => ⟨?_, ?_, ?_, ?_, reset_flag j f⟩, ?_⟩
  · exact ⟨_, exec_fieldWrite_fin s j f v, by simp [flag_withFlag]⟩
  · exact ⟨_, exec_set_fin s j _, fun g => by simp [flag_withRecord, recordFlag_maskValue_seven_or_zero]⟩
  · exact ⟨_, exec_fieldRead_fin s j f, rfl⟩
  · exact ⟨_, _, exec_get_fin s j, rfl, (flag_eq_recordFlag _ _ _).symm⟩
  · intro _ j _ t u _ hu
    obtain ⟨b, r, e, hexec⟩ := exec_determined_by_block j t.block
    exact ⟨_, _, r, hexec t rfl, hexec u hu, rfl, rfl, rfl, rfl⟩

end Sys2Proof.Machine

/-! # The family of spec/20_memory.md: the address decoder, the masks and shifts, the number of blocks -/

namespace Sys2Proof.Machine

/-! ## The address decoder (R43, R44, R46) -/

theorem adec_straddle_iff (i : Fin 8) : (adec i).straddle = true ↔ (adec i).bitOffset > 5 := by
  simp [adec]

theorem adec1_bitOffset_lt (i : Fin 8) (f : Field) : (adec1 i f).bitOffset < 8 := Nat.mod_lt _ (by decide)

/-- A field bit leaves its record's primary byte exactly where the offsets add up past bit 7 (R46). -/
theorem adec1_byteIndex_ne_iff (i : Fin 8) (f : Field) :
    (adec1 i f).byteIndex ≠ (adec i).byteIndex ↔ 8 ≤ (adec i).bitOffset + fieldOffset f := by
  have hf := fieldOffset_lt f
  simp only [adec1, adec]
  omega

/-- Settles O27: the tables have 8 and 24 rows, which are evaluated; the equations of `adec1` are its definition. -/
theorem addressDecoderTables : Obligations.AddressDecoderTables := by
  refine ⟨by decide, by decide, fun _ _ => ⟨rfl, rfl, rfl⟩, by decide, fun i f => ?_⟩
  rw [adec1_byteIndex_ne_iff]
  revert i
  cases f <;> decide

/-! ## The mask/shift generator (R47, R48, R50) -/

theorem byte_shiftLeft_toNat (x : Byte) (n : Nat) : (x <<< n).toNat = x.toNat * 2 ^ n % 256 := by
  rw [BitVec.toNat_shiftLeft, Nat.shiftLeft_eq]

theorem byte_ushiftRight_toNat (x : Byte) (n : Nat) : (x >>> n).toNat = x.toNat / 2 ^ n := by
  rw [BitVec.toNat_ushiftRight, Nat.shiftRight_eq_div_pow]

theorem msg_mask_toNat (i : Fin 8) : (msg i).mask.toNat = 7 * 2 ^ (adec i).bitOffset % 256 :=
  byte_shiftLeft_toNat 7#8 _

theorem msg_keep_toNat (i : Fin 8) : (msg i).keep.toNat = 255 - (msg i).mask.toNat := BitVec.toNat_not

theorem msg_secondary_eq_none {i : Fin 8} (h : (adec i).bitOffset ≤ 5) : (msg i).secondary = none :=
  if_neg fun hs => Nat.not_lt.mpr h ((adec_straddle_iff i).mp hs)

theorem msg_secondary_eq_some {i : Fin 8} (h : (adec i).bitOffset > 5) :
    (msg i).secondary = some (secondaryMask (adec i).byteIndex (adec i).bitOffset) :=
  if_pos ((adec_straddle_iff i).mpr h)

theorem secondaryMask_mask_toNat (k o : Nat) : (secondaryMask k o).mask.toNat = 7 / 2 ^ (8 - o) :=
  byte_ushiftRight_toNat 7#8 _

theorem secondaryMask_keep_toNat (k o : Nat) :
    (secondaryMask k o).keep.toNat = 255 - (secondaryMask k o).mask.toNat := BitVec.toNat_not

/-- The one bit of a field is never shifted out of its byte, so its mask is the power itself. -/
theorem msg1_mask_toNat (i : Fin 8) (f : Field) : (msg1 i f).mask.toNat = 2 ^ (adec1 i f).bitOffset := by
  have hlt : 2 ^ (adec1 i f).bitOffset < 2 ^ 8 := Nat.pow_lt_pow_right (by decide) (adec1_bitOffset_lt i f)
  calc (msg1 i f).mask.toNat
      = 1 * 2 ^ (adec1 i f).bitOffset % 256 := byte_shiftLeft_toNat 1#8 _
    _ = 2 ^ (adec1 i f).bitOffset := by rw [Nat.one_mul]; exact Nat.mod_eq_of_lt hlt

theorem msg1_keep_toNat (i : Fin 8) (f : Field) : (msg1 i f).keep.toNat = 255 - (msg1 i f).mask.toNat :=
  BitVec.toNat_not

/-- Settles O28: a shift multiplies or divides by a power of two and a complement subtracts from 255; the secondary part
stands exactly where the record straddles. -/
theorem maskShiftValues : Obligations.MaskShiftValues := by
  refine ⟨fun i => ⟨rfl, msg_mask_toNat i, ?_, msg_secondary_eq_none, fun h => ?_⟩,
    fun i f => ⟨rfl, msg1_mask_toNat i f, ?_⟩⟩
  · rw [msg_keep_toNat, msg_mask_toNat]
  · exact ⟨_, msg_secondary_eq_some h, rfl, rfl, secondaryMask_mask_toNat _ _,
      by rw [secondaryMask_keep_toNat, secondaryMask_mask_toNat]⟩
  · rw [msg1_keep_toNat, msg1_mask_toNat]

/-! ## The number of blocks (R64, R65) -/

/-- `NBLOCKS` has room for every cell, and one block fewer has not. -/
theorem nBlocks_bounds (n : Nat) : n ≤ 8 * nBlocks n ∧ 8 * nBlocks n < n + 8 := by
  rw [nBlocks]
  omega

theorem nBlocks_eight_mul (n : Nat) : nBlocks (8 * n) = n := by
  rw [nBlocks]
  omega

theorem blockIndex_eq_iff (g k : Nat) : blockIndex g = k ↔ 8 * k ≤ g ∧ g ≤ 8 * k + 7 := by
  rw [blockIndex]
  omega

theorem blockIndex_lt_nBlocks {n g : Nat} (h : g < n) : blockIndex g < nBlocks n := by
  rw [blockIndex, nBlocks]
  omega

/-- Settles O50: division by 8 rounds down for a cell's block and up for the number of blocks; an array carries the proof
of its length. -/
theorem blockCountIsTheCeiling : Obligations.BlockCountIsTheCeiling :=
  ⟨fun n => ⟨rfl, nBlocks_bounds n⟩, blockIndex_eq_iff, fun p bytes => (Board.allocate p bytes).sized,
    fun _ _ => blockIndex_lt_nBlocks, fun n => congrArg (3 * ·) (nBlocks_eight_mul n)⟩

end Sys2Proof.Machine

/-! # The family of spec/30_encoding.md: command words, response words, the events on the ports -/

namespace Sys2Proof.Machine

/-! ## One response per command (R72, R82) -/

/-- A command is answered once, its word stands on the port and reads back against the command; no sample is taken. -/
theorem exec_responds_once (i : Instr) (s : State) :
    ∃ t r, exec i s = .next t ∧ t.inputs = s.inputs ∧ t.responses = s.responses ++ [r] ∧
      t.rsp = some (encodeRsp r) ∧ decodeRsp i.kind (encodeRsp r) = r := by
  obtain ⟨-, he⟩ | ⟨-, b, r, -, hback, -, he⟩ := exec_cases s i
  · exact ⟨_, .errOutOfRange, he, rfl, rfl, rfl, rfl⟩
  · exact ⟨_, r, he, rfl, rfl, rfl, hback⟩

theorem portEvent_eq_idle_iff {p : PortIn} : portEvent p = .idle ↔ p.rst = false ∧ p.cmdValid = false := by
  rcases p with ⟨_ | _, _ | _, cmd⟩ <;> simp [portEvent]

theorem portEvent_eq_reset_iff {p : PortIn} : portEvent p = .reset ↔ p.rst = true ∧ p.cmdValid = false := by
  rcases p with ⟨_ | _, _ | _, cmd⟩ <;> simp [portEvent]

theorem portEvent_eq_command_iff {p : PortIn} {cw : CmdWord} :
    portEvent p = .command cw ↔ p.rst = false ∧ p.cmdValid = true ∧ p.cmd = cw := by
  rcases p with ⟨_ | _, _ | _, cmd⟩ <;> simp [portEvent]

/-- Settles O44: by what a step can do; the sample's two bits name its event, and a command responds once. -/
theorem oneResponsePerCommandEvent : Obligations.OneResponsePerCommandEvent := by
  intro s t p rest hin h
  obtain ⟨hnil, -⟩ | ⟨q, rest', hin', hevent⟩ := step_cases h
  · exact absurd (hin.symm.trans hnil) (List.cons_ne_nil _ _)
  obtain ⟨rfl, rfl⟩ := List.cons.inj (hin.symm.trans hin')
  obtain ⟨he, rfl⟩ | ⟨he, rfl⟩ | ⟨cw, he, -, hx⟩ := hevent
  · obtain ⟨hr, hv⟩ := portEvent_eq_idle_iff.mp he
    simp [hr, hv]
  · obtain ⟨hr, hv⟩ := portEvent_eq_reset_iff.mp he
    simp [hr, hv]
  · obtain ⟨hr, hv, -⟩ := portEvent_eq_command_iff.mp he
    obtain ⟨u, r, hu, hinputs, hresp, hrsp, -⟩ := exec_responds_once (decode cw) { s with inputs := rest }
    obtain rfl := Host.Outcome.next.inj (hu.symm.trans hx)
    exact ⟨hinputs, by simp [hr], fun _ _ => ⟨r, hresp, hrsp⟩, by simp [hr], by simp [hv]⟩

theorem decodeRsp_of_err (k : CmdKind) {rw : RspWord} (h : rw.getLsbD 3 = true) : decodeRsp k rw = .errOutOfRange :=
  if_pos h

/-- Settles O39: a command's word reads back by `exec_responds_once`; the table is the definition of `decodeRsp` on either
value of `err`. -/
theorem responseWordIsReadBack : Obligations.ResponseWordIsReadBack := by
  refine ⟨fun i s => ?_, fun k rw => decodeRsp_of_err k, fun rw h => ?_, rfl, rfl, rfl⟩
  · obtain ⟨t, r, he, -, hresp, hrsp, hback⟩ := exec_responds_once i s
    exact ⟨t, r, _, he, hresp, hrsp, hback⟩
  · simp only [decodeRsp, h, Bool.false_eq_true, if_false, and_self]

/-! ## The opcode map on every word (R74, R75, R83) -/

theorem opField_eq_bits (cw : CmdWord) : cw.extractLsb' 13 3 =
    ((BitVec.ofBool (cw.getLsbD 15)).setWidth 3 <<< 2) ||| ((BitVec.ofBool (cw.getLsbD 14)).setWidth 3 <<< 1) |||
      (BitVec.ofBool (cw.getLsbD 13)).setWidth 3 := by
  refine BitVec.eq_of_getLsbD_eq fun q hq => ?_
  interval_cases q <;> simp

theorem and_opMask (cw : CmdWord) : cw &&& 0xE000#16 = (cw.extractLsb' 13 3).setWidth 16 <<< 13 := by
  refine BitVec.eq_of_getLsbD_eq fun q hq => ?_
  interval_cases q <;> simp

/-- The row of the decoded command has the word's own bits of `op`. -/
theorem opRow_decode_matchBits (cw : CmdWord) : (opRow (decode cw)).matchBits = cw &&& 0xE000#16 := by
  rw [and_opMask, opField_eq_bits, decode]
  cases cw.getLsbD 15 <;> cases cw.getLsbD 14 <;> cases cw.getLsbD 13 <;> rfl

/-- No two rows have the same match. -/
theorem opTable_filter_matchBits (i : Instr) :
    opTable.filter (fun r => decide ((opRow i).matchBits = r.matchBits)) = [opRow i] := by
  cases i <;> rfl

theorem opTable_mask : ∀ r ∈ opTable, r.mask = 0xE000#16 := by decide

theorem opTable_filter_selects (cw : CmdWord) : opTable.filter (·.selects cw) = [opRow (decode cw)] := by
  rw [← opTable_filter_matchBits, opRow_decode_matchBits]
  exact List.filter_congr fun r hr => by rw [OpRow.selects, opTable_mask r hr]

theorem opRow_write_eq_bit (i : Instr) : (opRow i).write = (opRow i).matchBits.getLsbD 13 := by
  cases i <;> simp [opRow]

theorem opRow_sel_eq_bits (i : Instr) : (opRow i).sel = (opRow i).matchBits.extractLsb' 14 2 := by
  cases i <;> simp [opRow]

theorem opRow_decode_write (cw : CmdWord) : (opRow (decode cw)).write = cw.getLsbD 13 := by
  simp [opRow_write_eq_bit, opRow_decode_matchBits]

theorem opRow_decode_sel (cw : CmdWord) : (opRow (decode cw)).sel = cw.extractLsb' 14 2 := by
  rw [opRow_sel_eq_bits, opRow_decode_matchBits]
  refine BitVec.eq_of_getLsbD_eq fun q hq => ?_
  interval_cases q <;> simp

/-- What a word decodes to, with its operands where the pattern places them (R76 to R78). -/
theorem decode_form_cases (cw : CmdWord) :
    decode cw = .get (indexOperand cw) ∨ decode cw = .set (indexOperand cw) (valueOperand cw) ∨
    (∃ f, decode cw = fieldReadInstr f (indexOperand cw)) ∨
    ∃ f, decode cw = fieldWriteInstr f (indexOperand cw) (boolOperand cw) := by
  unfold decode
  split
  · exact .inl rfl
  · exact .inr (.inl rfl)
  · exact .inr (.inr (.inl ⟨.mine, rfl⟩))
  · exact .inr (.inr (.inr ⟨.mine, rfl⟩))
  · exact .inr (.inr (.inl ⟨.revealed, rfl⟩))
  · exact .inr (.inr (.inr ⟨.revealed, rfl⟩))
  · exact .inr (.inr (.inl ⟨.flagged, rfl⟩))
  · exact .inr (.inr (.inr ⟨.flagged, rfl⟩))

theorem fieldReadInstr_ne_set (f : Field) (idx idx' val : Int) : fieldReadInstr f idx ≠ .set idx' val := by
  cases f <;> simp [fieldReadInstr]

theorem fieldWriteInstr_ne_set (f : Field) (idx : Int) (b : Bool) (idx' val : Int) :
    fieldWriteInstr f idx b ≠ .set idx' val := by
  cases f <;> simp [fieldWriteInstr]

theorem fieldReadInstr_ne_fieldWriteInstr (f g : Field) (idx idx' : Int) (b : Bool) :
    fieldReadInstr f idx ≠ fieldWriteInstr g idx' b := by
  cases f <;> cases g <;> simp [fieldReadInstr, fieldWriteInstr]

theorem fieldWriteInstr_inj {f g : Field} {idx idx' : Int} {b c : Bool}
    (h : fieldWriteInstr f idx b = fieldWriteInstr g idx' c) : f = g ∧ idx = idx' ∧ b = c := by
  cases f <;> cases g <;> simp_all [fieldWriteInstr]

theorem decode_idx (cw : CmdWord) : (decode cw).idx = indexOperand cw := by
  obtain h | h | ⟨f, h⟩ | ⟨f, h⟩ := decode_form_cases cw <;> rw [h]
  · rfl
  · rfl
  · exact fieldReadInstr_idx f _
  · exact fieldWriteInstr_idx f _ _

theorem val_of_decode_eq_set {cw : CmdWord} {idx val : Int} (h : decode cw = .set idx val) : val = valueOperand cw := by
  obtain h' | h' | ⟨f, h'⟩ | ⟨f, h'⟩ := decode_form_cases cw <;> rw [h'] at h
  · cases h
  · injection h with _ hval; exact hval.symm
  · exact absurd h (fieldReadInstr_ne_set _ _ _ _)
  · exact absurd h (fieldWriteInstr_ne_set _ _ _ _ _)

theorem bool_of_decode_eq_fieldWriteInstr {cw : CmdWord} {f : Field} {idx : Int} {b : Bool}
    (h : decode cw = fieldWriteInstr f idx b) : b = boolOperand cw := by
  obtain h' | h' | ⟨g, h'⟩ | ⟨g, h'⟩ := decode_form_cases cw <;> rw [h'] at h
  · cases f <;> cases h
  · exact absurd h.symm (fieldWriteInstr_ne_set _ _ _ _ _)
  · exact absurd h (fieldReadInstr_ne_fieldWriteInstr _ _ _ _ _)
  · obtain ⟨-, -, hb⟩ := fieldWriteInstr_inj h
    exact hb.symm

/-- The effective bits of the value operand are CW[2:0] (R75, R77, R102). -/
theorem valueOperand_mod_eight (cw : CmdWord) : valueOperand cw % 8 = (cw.extractLsb' 0 3).toNat := by
  simp only [valueOperand, BitVec.extractLsb'_toNat, Nat.shiftRight_zero]
  omega

/-- Settles O34: the row of the decoded command has the word's bits under the mask, and no two rows have the same match;
direction and selector are read off the match; the operands are those of `decode_form_cases`. -/
theorem opcodeRowsPartitionTheWords : Obligations.OpcodeRowsPartitionTheWords := by
  refine ⟨rfl, fun cw => ⟨opTable_filter_selects cw, opRow_decode_write cw, opRow_decode_sel cw⟩, fun f idx b => ?_,
    fun i => ?_, fun cw => ⟨decode_idx cw, fun idx val h => ?_, fun _ _ _ => bool_of_decode_eq_fieldWriteInstr⟩⟩
  · cases f <;> simp [fieldReadInstr, fieldWriteInstr, opRow, fieldOffset]
  · cases i <;> simp [opRow, Instr.kind]
  · rw [val_of_decode_eq_set h, valueOperand_mod_eight]

/-! ## A command word on the ports (R83) -/

/-- The sign extension of the index field (R76). -/
theorem indexOperand_eq_ite (cw : CmdWord) : indexOperand cw =
    if (cw.extractLsb' 8 5).toNat < 16 then ((cw.extractLsb' 8 5).toNat : Int)
    else ((cw.extractLsb' 8 5).toNat : Int) - 32 := by
  rw [indexOperand, BitVec.toInt_eq_toNat_cond]
  split <;> split <;> omega

theorem step_of_inputs {s : State} {p : PortIn} {rest : List PortIn} (h : s.inputs = p :: rest) :
    step s = serve p { s with inputs := rest } := by
  rw [step, serveNext, h]

theorem serve_presentWord {s : State} (cw : CmdWord) (h : s.constructed = true) :
    serve (presentWord cw) s = exec (decode cw) s :=
  if_pos h

/-- Settles O33: the operation by the three bits of `op`, the operands by the fields' values; a presented word is served as
its command, which responds once. -/
theorem decodeFollowsTheOpcodeMap : Obligations.DecodeFollowsTheOpcodeMap := by
  refine fun s cw rest => ⟨?_, fun hc hin => ?_, ?_⟩
  · simp only [← indexOperand_eq_ite, ← BitVec.getLsbD_eq_extractLsb', opField_eq_bits]
    rw [decode]
    cases cw.getLsbD 15 <;> cases cw.getLsbD 14 <;> cases cw.getLsbD 13 <;> rfl
  · rw [step_of_inputs hin]
    exact serve_presentWord cw hc
  · obtain ⟨t, r, he, -, hresp, hrsp, -⟩ := exec_responds_once (decode cw) s
    exact ⟨t, r, he, hresp, hrsp⟩

/-! ## The assembler (R85, R88) -/

theorem indexFits_iff (idx : Int) : indexFits idx = true ↔ -16 ≤ idx ∧ idx ≤ 15 := by
  simp only [indexFits, Config.idxW, Bool.and_eq_true, decide_eq_true_eq]
  omega

theorem valueFits_iff (val : Int) : valueFits val = true ↔ 0 ≤ val ∧ val ≤ 255 := by
  simp only [valueFits, Config.valW, Bool.and_eq_true, decide_eq_true_eq]
  omega

theorem valueOk_of_ne_set {i : Instr} (h : ∀ idx val, i ≠ .set idx val) : i.valueOk = true := by
  cases i with
  | set idx val => exact absurd rfl (h idx val)
  | _ => rfl

theorem assemble_index_unencodable {i : Instr} (hi : ¬ indexFits i.idx = true) :
    assembleEvent (.command i) = .error (.unencodable .indexUnencodable) := by
  rw [assembleEvent, encode, if_neg hi]

theorem assemble_value_unencodable {i : Instr} (hi : indexFits i.idx = true) (hv : ¬ i.valueOk = true) :
    assembleEvent (.command i) = .error (.unencodable .valueUnencodable) := by
  rw [assembleEvent, encode, if_pos hi, if_neg hv]

theorem assemble_encodable {i : Instr} (hi : indexFits i.idx = true) (hv : i.valueOk = true) :
    assembleEvent (.command i) = .ok (presentWord (encodeWord i)) := by
  rw [assembleEvent, encode, if_pos hi, if_pos hv]

/-- Settles O38: the assembler's three outcomes, with the bounds of the two fields written out. -/
theorem assemblerRejectsExactlyTheUnencodable : Obligations.AssemblerRejectsExactlyTheUnencodable := by
  refine ⟨fun i h => ?_, fun idx val hlo hhi hval => ?_, fun idx val hlo hhi hvlo hvhi => ?_,
    fun i hset hlo hhi => ?_⟩
  · exact assemble_index_unencodable fun hi => by have := (indexFits_iff _).mp hi; omega
  · exact assemble_value_unencodable ((indexFits_iff _).mpr ⟨hlo, hhi⟩) fun hv => by
      have := (valueFits_iff val).mp hv; omega
  · exact assemble_encodable ((indexFits_iff _).mpr ⟨hlo, hhi⟩) ((valueFits_iff _).mpr ⟨hvlo, hvhi⟩)
  · exact assemble_encodable ((indexFits_iff _).mpr ⟨hlo, hhi⟩) (valueOk_of_ne_set hset)

end Sys2Proof.Machine

/-! # The family of spec/40_record_access.md: GET and SET -/

namespace Sys2Proof.Machine

/-! ## The words of the record commands (R75, R97, R101) -/

/-- The three bits of `op` are those of the word under the mask. -/
theorem opBits_of_and_opMask {cw m : CmdWord} (h : cw &&& 0xE000#16 = m) :
    cw.getLsbD 15 = m.getLsbD 15 ∧ cw.getLsbD 14 = m.getLsbD 14 ∧ cw.getLsbD 13 = m.getLsbD 13 := by
  simp [← h]

theorem decode_eq_get {cw : CmdWord} (h : cw &&& 0xE000#16 = 0x0000#16) : decode cw = .get (indexOperand cw) := by
  obtain ⟨h15, h14, h13⟩ := opBits_of_and_opMask h
  rw [decode, h15, h14, h13]
  rfl

theorem decode_eq_set {cw : CmdWord} (h : cw &&& 0xE000#16 = 0x2000#16) :
    decode cw = .set (indexOperand cw) (valueOperand cw) := by
  obtain ⟨h15, h14, h13⟩ := opBits_of_and_opMask h
  rw [decode, h15, h14, h13]
  rfl

/-! ## OutOfRange (R131, R134) -/

theorem exec_eq_outOfRangeAnswer (i : Instr) (s : State) (h : i.idx < 0 ∨ 7 < i.idx) :
    exec i s = outOfRangeAnswer s :=
  exec_out (fun ⟨h0, h8⟩ => by omega) s

/-! ## The masked value (R102) -/

theorem maskValue_eq_ofNat (val : Int) : maskValue val = BitVec.ofNat 3 (val % 8).toNat :=
  BitVec.eq_of_toNat_eq (by simp [maskValue, BitVec.toNat_ofInt]; omega)

theorem maskValue_emod (val : Int) : maskValue (val % 8) = maskValue val := by
  rw [maskValue_eq_ofNat, maskValue_eq_ofNat, Int.emod_emod]

theorem maskValue_toNat (val : Int) : ((maskValue val).toNat : Int) = val % 8 := by
  rw [maskValue_eq_ofNat, BitVec.toNat_ofNat]
  omega

/-- From a command word the masked value is CW[2:0] (R102). -/
theorem maskValue_valueOperand (cw : CmdWord) : maskValue (valueOperand cw) = cw.extractLsb' 0 3 := by
  rw [maskValue_eq_ofNat, valueOperand_mod_eight, Int.toNat_natCast, BitVec.ofNat_toNat, BitVec.setWidth_eq]

/-! ## Single bytes (R36) -/

theorem readByte_eq_byteAt (b : Block) {k : Nat} (hk : k < 3) : b.readByte k = .ok (b.byteAt k) := by
  obtain ⟨x, hx, -⟩ := readByte_span b hk
  rw [hx, byteAt_eq_of_readByte hx]

theorem byteAt_congr {b c : Block} {k : Nat} (h : c.readByte k = b.readByte k) : c.byteAt k = b.byteAt k := by
  rw [Block.byteAt, h, Block.byteAt]

/-- A byte write gives the byte its value and leaves every other byte. -/
theorem writeByte_bytes (b : Block) {k : Nat} (hk : k < 3) (v : Byte) :
    ∃ c, b.writeByte k v = .ok c ∧ c.byteAt k = v ∧ ∀ j, j ≠ k → c.readByte j = b.readByte j := by
  interval_cases k
  all_goals
    refine ⟨_, rfl, rfl, fun j hj => ?_⟩
    rcases j with _ | _ | _ | j <;> simp_all [Block.readByte]

theorem adec_byteIndex_lt (i : Fin 8) : (adec i).byteIndex < 3 := by
  have hi := i.isLt
  simp only [adec]
  omega

/-- A record that straddles is not in the last byte (R45). -/
theorem adec_secondary_lt {i : Fin 8} (h : (adec i).bitOffset > 5) : (adec i).byteIndex + 1 < 3 := by
  have hi := i.isLt
  simp only [adec] at h ⊢
  omega

/-! ## The access paths by the expanded formulas (R97, R101) -/

@[simp] theorem msg_byteIndex (i : Fin 8) : (msg i).byteIndex = (adec i).byteIndex := rfl
@[simp] theorem msg_shift (i : Fin 8) : (msg i).shift = (adec i).bitOffset := rfl
@[simp] theorem msg_keep (i : Fin 8) : (msg i).keep = ~~~(0b111#8 <<< (adec i).bitOffset) := rfl

/-- The read path is the read formula: the secondary byte is read exactly where the record straddles. -/
theorem extract3_eq_readFormula (b : Block) (i : Fin 8) : extract3 b i =
    .ok (readFormula (adec i).bitOffset (b.byteAt (adec i).byteIndex) (b.byteAt ((adec i).byteIndex + 1))) := by
  have hp := readByte_eq_byteAt b (adec_byteIndex_lt i)
  by_cases h : (adec i).bitOffset > 5
  · have hq := readByte_eq_byteAt b (adec_secondary_lt h)
    simp [extract3, hp, msg_secondary_eq_some h, secondaryMask, hq, readFormula, h, bind, Except.bind]
  · simp [extract3, hp, msg_secondary_eq_none (Nat.not_lt.mp h), readFormula, h, bind, Except.bind]

theorem record_eq_readFormula (b : Block) (i : Fin 8) : b.record i =
    readFormula (adec i).bitOffset (b.byteAt (adec i).byteIndex) (b.byteAt ((adec i).byteIndex + 1)) :=
  Except.ok.inj ((extract3_eq b i).symm.trans (extract3_eq_readFormula b i))

/-- The bytes of the block with one record rewritten, as the write path forms them; the secondary byte is written exactly
where the record straddles. -/
theorem withRecord_bytes (b : Block) (i : Fin 8) (v : Rec) :
    (b.withRecord i v).byteAt (adec i).byteIndex =
      primaryFormula (adec i).bitOffset (b.byteAt (adec i).byteIndex) v ∧
    ((adec i).bitOffset > 5 → (b.withRecord i v).byteAt ((adec i).byteIndex + 1) =
      secondaryFormula (adec i).bitOffset (b.byteAt ((adec i).byteIndex + 1)) v) ∧
    ∀ k, k ≠ (adec i).byteIndex → ¬ ((adec i).bitOffset > 5 ∧ k = (adec i).byteIndex + 1) →
      (b.withRecord i v).readByte k = b.readByte k := by
  have hp := readByte_eq_byteAt b (adec_byteIndex_lt i)
  obtain ⟨c, hc, hcp, hcframe⟩ := writeByte_bytes b (adec_byteIndex_lt i)
    (primaryFormula (adec i).bitOffset (b.byteAt (adec i).byteIndex) v)
  by_cases h : (adec i).bitOffset > 5
  · have hcq : c.readByte ((adec i).byteIndex + 1) = .ok (b.byteAt ((adec i).byteIndex + 1)) := by
      rw [hcframe _ (Nat.succ_ne_self _), readByte_eq_byteAt b (adec_secondary_lt h)]
    obtain ⟨d, hd, hdq, hdframe⟩ := writeByte_bytes c (adec_secondary_lt h)
      (secondaryFormula (adec i).bitOffset (b.byteAt ((adec i).byteIndex + 1)) v)
    have hm : merge3 b i v = .ok d := by
      rw [primaryFormula] at hc
      rw [secondaryFormula] at hd
      simpa [merge3, hp, hc, msg_secondary_eq_some h, secondaryMask, hcq, bind, Except.bind] using hd
    obtain rfl := Except.ok.inj ((merge3_eq b i v).symm.trans hm)
    refine ⟨?_, fun _ => hdq, fun k hk hk' => ?_⟩
    · rw [byteAt_congr (hdframe _ (Nat.succ_ne_self _).symm), hcp]
    · rw [hdframe k fun e => hk' ⟨h, e⟩, hcframe k hk]
  · have hm : merge3 b i v = .ok c := by
      rw [primaryFormula] at hc
      simp [merge3, hp, hc, msg_secondary_eq_none (Nat.not_lt.mp h), bind, Except.bind]
    obtain rfl := Except.ok.inj ((merge3_eq b i v).symm.trans hm)
    exact ⟨hcp, fun hs => absurd hs h, fun k hk _ => hcframe k hk⟩

/-! ## GET (R97) -/

/-- Settles O4: the answer in range is the record, which the read path finds by the formula; out of range it is
`exec_out`. -/
theorem getReadsItsRecord : Obligations.GetReadsItsRecord := by
  refine ⟨fun _ => decode_eq_get, fun s i => ?_, fun s idx => exec_eq_outOfRangeAnswer (.get idx) s, fun s hs => ?_⟩
  · rw [exec_get_fin, record_eq_readFormula]
    rfl
  · have hdecode : decode 0x0500 = .get (5 : Fin 8).val := by decide
    have hrecord : s.block.record 5 = 7 := by rw [hs]; decide
    rw [hdecode, exec_get_fin, hrecord]
    rfl

/-! ## SET (R101, R102, R105) -/

theorem exec_set_congr {v w : Int} (h : maskValue v = maskValue w) (s : State) (idx : Int) :
    exec (.set idx v) s = exec (.set idx w) s := by
  simp only [exec, execSet, h]

/-- The answer of SET to a command word in range, the value by its three effective bits (R75). -/
theorem exec_set_valueOperand (s : State) (cw : CmdWord) (i : Fin 8) : exec (.set i.val (valueOperand cw)) s =
    writeAnswer s (s.block.withRecord i (cw.extractLsb' 0 3)) := by
  rw [exec_set_fin, maskValue_valueOperand]
  rfl

/-- Settles O6: the bytes of the rewritten record are those of the write path; out of range it is `exec_out`. -/
theorem setWritesItsRecord : Obligations.SetWritesItsRecord := by
  refine ⟨fun _ => decode_eq_set, fun s i val => ?_, fun s idx val => exec_eq_outOfRangeAnswer (.set idx val) s,
    fun s hs => ?_⟩
  · exact ⟨_, exec_set_fin s i val, maskValue_eq_ofNat val ▸ withRecord_bytes s.block i (maskValue val)⟩
  · have hdecode : decode 0x2205 = .set (2 : Fin 8).val (valueOperand 0x2205) := by decide
    have hblock : s.block.withRecord 2 5 = ⟨0x40, 0x01, 0x00⟩ := by rw [hs]; decide
    have hset : exec (decode 0x2205) s = writeAnswer s ⟨0x40, 0x01, 0x00⟩ := by
      rw [hdecode, exec_set_valueOperand, ← hblock]
      rfl
    have hword : encodeRsp (.okRec (Block.record ⟨0x40, 0x01, 0x00⟩ 2)) = 0x5#4 := by decide
    exact ⟨_, hset, rfl, rfl, _, exec_get_fin _ 2, congrArg some hword⟩

/-- Settles O7: SET looks at its value through `maskValue` alone. -/
theorem setMasksItsValue : Obligations.SetMasksItsValue := by
  refine ⟨fun s idx val => ?_, fun s idx val _ => ?_, fun s i val => ⟨_, exec_set_fin s i val, ?_, rfl⟩,
    fun s cw h hok => ?_⟩
  · exact exec_set_congr (maskValue_emod val).symm s idx
  · have hand : ((val &&& 0b111 : Nat) : Int) = (val : Int) % 8 := by
      rw [Nat.and_two_pow_sub_one_eq_mod val 3]
      exact Int.natCast_emod val 8
    exact exec_set_congr (by rw [hand, maskValue_emod]) s idx
  · rw [respond_block, record_withRecord, if_pos rfl, maskValue_toNat]
  · rw [decode_eq_set h] at hok ⊢
    obtain ⟨n, -, hn⟩ := inRange_of_ok hok
    have hidx : indexOperand cw = n.val := hn
    rw [hidx]
    refine ⟨_, exec_set_valueOperand s cw n, fun i hi => ?_⟩
    obtain rfl : i = n := Fin.ext (Int.ofNat.inj hi)
    exact (record_withRecord _ _ _ _).trans (if_pos rfl)

/-- Settles O9: the span bits and the records by the views, the bytes by the write path. -/
theorem setChangesNoOtherRecord : Obligations.SetChangesNoOtherRecord := by
  intro s t i val h
  obtain rfl := Host.Outcome.next.inj ((exec_set_fin s i val).symm.trans h)
  obtain ⟨-, -, hframe⟩ := withRecord_bytes s.block i (maskValue val)
  refine ⟨fun p hp hout => ?_, fun k hk hk' => ?_, fun j hj => ?_⟩
  · exact (span_withRecord_bit _ _ _ hp).trans (if_neg (by omega))
  · exact hframe k hk (by rwa [← adec_straddle_iff])
  · refine ⟨_, _, exec_get_fin s j, exec_get_fin _ j, ?_⟩
    simp [record_withRecord, hj]

/-! ## The reading commands have no side effects (R99, R118) -/

theorem exec_read {i : Instr} (h : i.kind ≠ .write) (s : State) : ∃ t, exec i s = .next t ∧ t.block = s.block := by
  obtain ⟨-, he⟩ | ⟨-, b, r, -, -, hread, he⟩ := exec_cases s i
  · exact ⟨_, he, rfl⟩
  · exact ⟨_, he, hread h⟩

theorem execAll_cons_of_next {i : Instr} {s t : State} (h : exec i s = .next t) (is : List Instr) :
    execAll (i :: is) s = execAll is t := by
  rw [execAll, h]

theorem execAll_reads {cmds : List Instr} (h : ∀ c ∈ cmds, c.kind ≠ .write) (s : State) :
    ∃ t, execAll cmds s = .next t ∧ t.block = s.block := by
  induction cmds generalizing s with
  | nil => exact ⟨s, rfl, rfl⟩
  | cons c cs ih =>
    obtain ⟨hc, hcs⟩ := List.forall_mem_cons.mp h
    obtain ⟨t, ht, htb⟩ := exec_read hc s
    obtain ⟨u, hu, hub⟩ := ih hcs t
    exact ⟨u, (execAll_cons_of_next ht cs).trans hu, hub.trans htb⟩

/-- Settles O22: the reads between keep the bytes, and the bytes alone determine the response. -/
theorem readsHaveNoSideEffects : Obligations.ReadsHaveNoSideEffects := by
  refine ⟨fun i s h => ?_, fun i between s h hbetween => ?_⟩
  · obtain ⟨t, ht, hb⟩ := exec_read h s
    exact ⟨t, ht, hb, fun k => by rw [hb]⟩
  · obtain ⟨t, ht, htb⟩ := exec_read h s
    obtain ⟨u, hu, hub⟩ := execAll_reads hbetween t
    obtain ⟨b, r, e, hexec⟩ := exec_determined_by_block i s.block
    obtain rfl := Host.Outcome.next.inj ((hexec s rfl).symm.trans ht)
    exact ⟨_, u, _, ht, hu, hexec u (hub.trans htb), rfl, by simp⟩

end Sys2Proof.Machine

/-! # The family of spec/41_field_access.md: the three field reads and the three field writes -/

namespace Sys2Proof.Machine

/-! ## The words of the field commands (R75, R112 to R117) -/

theorem decode_eq_fieldReadInstr {cw : CmdWord} {f : Field}
    (h : cw &&& 0xE000#16 = (opRow (fieldReadInstr f 0)).matchBits) :
    decode cw = fieldReadInstr f (indexOperand cw) := by
  obtain ⟨h15, h14, h13⟩ := opBits_of_and_opMask h
  rw [decode, h15, h14, h13]
  cases f <;> rfl

theorem decode_eq_fieldWriteInstr {cw : CmdWord} {f : Field}
    (h : cw &&& 0xE000#16 = (opRow (fieldWriteInstr f 0 false)).matchBits) :
    decode cw = fieldWriteInstr f (indexOperand cw) (boolOperand cw) := by
  obtain ⟨h15, h14, h13⟩ := opBits_of_and_opMask h
  rw [decode, h15, h14, h13]
  cases f <;> rfl

/-! ## A flag as a bit of its byte and as a bit of its record (R46, R53) -/

theorem adec1_byteIndex (i : Fin 8) (f : Field) : (adec1 i f).byteIndex = (3 * i.val + fieldOffset f) / 8 := by
  rw [adec1, Nat.mul_comm]

theorem adec1_bitOffset (i : Fin 8) (f : Field) : (adec1 i f).bitOffset = (3 * i.val + fieldOffset f) % 8 := by
  rw [adec1, Nat.mul_comm]

/-- The expanded bit test of R112 to R114 finds the flag. -/
theorem byteAt_bitTest_eq_flag (b : Block) (i : Fin 8) (f : Field) :
    ((b.byteAt ((3 * i.val + fieldOffset f) / 8) >>> ((3 * i.val + fieldOffset f) % 8)) &&& 1#8 != 0#8) =
      b.flag i f := by
  have hi := i.isLt
  have hf := fieldOffset_lt f
  rw [bitTest_eq, ← span_getLsbD b (by omega), Block.flag]

theorem recordFlag_eq_maskTest (r : Rec) (f : Field) : recordFlag r f = (r &&& (1#3 <<< fieldOffset f) != 0#3) := by
  revert r
  cases f <;> decide

/-- The new byte by the write formula of R115 to R117: the bit cleared, then its new value put there. -/
def bitFormula (bitOffset : Nat) (p : Byte) (v : Bool) : Byte :=
  (p &&& ~~~(1#8 <<< bitOffset)) ||| ((BitVec.ofBool v).setWidth 8 <<< bitOffset)

/-- The bytes of the block with one flag rewritten, as the write path forms them: one byte is written (R53). -/
theorem withFlag_bytes (b : Block) (i : Fin 8) (f : Field) (v : Bool) :
    (b.withFlag i f v).byteAt (adec1 i f).byteIndex =
      bitFormula (adec1 i f).bitOffset (b.byteAt (adec1 i f).byteIndex) v ∧
    ∀ k, k ≠ (adec1 i f).byteIndex → (b.withFlag i f v).readByte k = b.readByte k := by
  obtain ⟨c, hc, hbyte, hframe⟩ := writeByte_bytes b (adec1_byteIndex_lt i f)
    (bitFormula (adec1 i f).bitOffset (b.byteAt (adec1 i f).byteIndex) v)
  have hm : merge1 b i f v = .ok c := by
    simpa [merge1, msg1, bitFormula, readByte_eq_byteAt b (adec1_byteIndex_lt i f), bind, Except.bind] using hc
  obtain rfl := Except.ok.inj ((merge1_eq b i f v).symm.trans hm)
  exact ⟨hbyte, hframe⟩

theorem record_withFlag_of_ne (b : Block) {i j : Fin 8} (h : j ≠ i) (f : Field) (v : Bool) :
    (b.withFlag i f v).record j = b.record j :=
  rec_eq_of_flags fun g => by
    rw [← flag_eq_recordFlag, ← flag_eq_recordFlag, flag_withFlag, if_neg fun hjg => h hjg.1]

/-! ## The answers in range, with their response words (R81) -/

section
variable {s : State} {i : Fin 8} {f : Field}

theorem exec_fieldRead_eq_readAnswer {v : Bool} (h : s.block.flag i f = v) :
    exec (fieldReadInstr f i.val) s = readAnswer s (.okFlag v) (if v then 0x1#4 else 0x0#4) := by
  rw [exec_fieldRead_fin, h]
  cases v <;> rfl

theorem exec_fieldWrite_eq_writeAnswer (v : Bool) :
    exec (fieldWriteInstr f i.val v) s = writeAnswer s (s.block.withFlag i f v) :=
  exec_fieldWrite_fin s i f v

theorem exec_get_eq_readAnswer {r : Rec} (h : s.block.record i = r) :
    exec (.get i.val) s = readAnswer s (.okRec r) (r.setWidth 4) := by
  rw [exec_get_fin, h]
  rfl

/-- A field read of given bytes, as a command word. -/
theorem exec_fieldReadWord {cw : CmdWord} {b : Block} {v : Bool} (hcw : decode cw = fieldReadInstr f i.val)
    (hv : b.flag i f = v) (hs : s.block = b) :
    exec (decode cw) s = readAnswer s (.okFlag v) (if v then 0x1#4 else 0x0#4) := by
  rw [hcw]
  exact exec_fieldRead_eq_readAnswer (hs ▸ hv)

/-- A field write on given bytes, as a command word, and the GET that follows it. -/
theorem exec_fieldWriteWord_then_get {cw : CmdWord} {b b' : Block} {v : Bool} {r : Rec}
    (hcw : decode cw = fieldWriteInstr f i.val v) (hb : b.withFlag i f v = b') (hr : b'.record i = r)
    (hs : s.block = b) :
    ∃ t, exec (decode cw) s = writeAnswer s b' ∧ exec (decode cw) s = .next t ∧
      exec (.get i.val) t = readAnswer t (.okRec r) (r.setWidth 4) := by
  have hwrite : exec (decode cw) s = writeAnswer s b' := by
    rw [hcw, exec_fieldWrite_eq_writeAnswer, hs, hb]
  exact ⟨_, hwrite, hwrite, exec_get_eq_readAnswer hr⟩

end

/-! ## The field reads (R112 to R114) -/

theorem fieldReadInstr_rule (f : Field) :
    FieldReadRule (fieldReadInstr f) f (opRow (fieldReadInstr f 0)).matchBits := by
  refine ⟨fun _ => decode_eq_fieldReadInstr, fun s i => ⟨?_, ?_⟩, fun s idx h => ?_⟩
  · exact exec_fieldRead_eq_readAnswer (byteAt_bitTest_eq_flag s.block i f).symm
  · rw [byteAt_bitTest_eq_flag, flag_eq_recordFlag, recordFlag_eq_maskTest]
  · exact exec_eq_outOfRangeAnswer _ s (by rwa [fieldReadInstr_idx])

/-- Settles O11: one rule for the three flags; the worked examples read records 5 and 2 of the given bytes. -/
theorem fieldReadsAnswerTheirBit : Obligations.FieldReadsAnswerTheirBit := by
  refine ⟨fieldReadInstr_rule .mine, fieldReadInstr_rule .revealed, fieldReadInstr_rule .flagged,
    fun s hs => ⟨?_, ?_⟩, fun s hs => ?_⟩
  · exact exec_fieldReadWord (i := 5) (f := .mine) (v := true) (by decide) (by decide) hs
  · exact exec_fieldReadWord (i := 5) (f := .revealed) (v := true) (by decide) (by decide) hs
  · exact exec_fieldReadWord (i := 2) (f := .flagged) (v := true) (by decide) (by decide) hs

/-! ## The field writes (R115 to R117, R124) -/

theorem fieldWriteInstr_rule (f : Field) :
    FieldWriteRule (fieldWriteInstr f) f (opRow (fieldWriteInstr f 0 false)).matchBits := by
  refine ⟨fun _ => decode_eq_fieldWriteInstr, fun s i v => ?_, fun s idx v h => ?_⟩
  · have hbytes := withFlag_bytes s.block i f v
    rw [adec1_byteIndex, adec1_bitOffset] at hbytes
    exact ⟨_, exec_fieldWrite_eq_writeAnswer v, hbytes⟩
  · exact exec_eq_outOfRangeAnswer _ s (by rwa [fieldWriteInstr_idx])

/-- Settles O12: one rule for the three flags; the worked examples set the flags of record 5 one after another. -/
theorem fieldWritesWriteTheirBit : Obligations.FieldWritesWriteTheirBit := by
  refine ⟨fieldWriteInstr_rule .mine, fieldWriteInstr_rule .revealed, fieldWriteInstr_rule .flagged,
    fun s hs => ?_, fun s hs => ?_, fun s hs => ?_⟩
  · exact exec_fieldWriteWord_then_get (i := 5) (f := .mine) (v := true) (by decide) (by decide) (by decide) hs
  · exact exec_fieldWriteWord_then_get (i := 5) (f := .revealed) (v := true) (by decide) (by decide) (by decide) hs
  · exact exec_fieldWriteWord_then_get (i := 5) (f := .flagged) (v := true) (by decide) (by decide) (by decide) hs

/-- Settles O13: the span bits, flags and records by the views, the bytes by the write path. -/
theorem fieldWriteChangesOneBit : Obligations.FieldWriteChangesOneBit := by
  intro s t i f v h
  obtain rfl := Host.Outcome.next.inj ((exec_fieldWrite_fin s i f v).symm.trans h)
  obtain ⟨-, hframe⟩ := withFlag_bytes s.block i f v
  refine ⟨fun p hp hne => ?_, fun g hg => ?_, fun j hj => record_withFlag_of_ne s.block hj f v, hframe⟩
  · exact (span_withFlag_bit _ _ _ _ hp).trans (if_neg hne)
  · exact (flag_withFlag _ _ _ _ _ _).trans (if_neg fun hig => hg hig.2)

/-! ## SET, then the field reads (R125) -/

theorem maskValue_rec_toNat (p : Rec) : maskValue p.toNat = p := by
  rw [maskValue, BitVec.ofInt_natCast, BitVec.ofNat_toNat, BitVec.setWidth_eq]

/-- The flags of a record that SET wrote are the bits of its packed value. -/
theorem flag_withRecord_maskValue (b : Block) (i : Fin 8) (p : Rec) (f : Field) :
    (b.withRecord i (maskValue p.toNat)).flag i f = (p &&& (1#3 <<< fieldOffset f) != 0#3) := by
  rw [flag_withRecord, if_pos rfl, maskValue_rec_toNat, recordFlag_eq_maskTest]

/-- A field read on the bytes that SET left, `m` being the flag's mask in the packed value. -/
theorem exec_fieldRead_after_set {t : State} {b : Block} {i : Fin 8} {p m : Rec} (f : Field)
    (hm : 1#3 <<< fieldOffset f = m) (ht : t.block = b.withRecord i (maskValue p.toNat)) :
    exec (fieldReadInstr f i.val) t =
      readAnswer t (.okFlag (p &&& m != 0#3)) (if p &&& m != 0#3 then 1#4 else 0#4) :=
  exec_fieldRead_eq_readAnswer (by rw [ht, flag_withRecord_maskValue, hm])

/-- Settles O15: each field read finds its bit of the packed value in the record that SET wrote. -/
theorem setThenFieldReadsDecompose : Obligations.SetThenFieldReadsDecompose := fun s i p =>
  ⟨_, exec_set_fin s i p.toNat, exec_fieldRead_after_set .mine rfl rfl,
    exec_fieldRead_after_set .revealed rfl rfl, exec_fieldRead_after_set .flagged rfl rfl⟩

end Sys2Proof.Machine

/-! # The family of spec/60_exceptions.md: OutOfRange -/

namespace Sys2Proof.Machine

/-! ## Where OutOfRange is answered (R131, R135) -/

/-- `err` in the response word says whether the command failed (R80, R81). -/
theorem encodeRsp_err_iff (r : Response) : (encodeRsp r).getLsbD 3 = true ↔ r = .errOutOfRange := by
  cases r with
  | okRec v => simp [encodeRsp]
  | okFlag v => simp [encodeRsp]
  | okUnit => decide
  | errOutOfRange => decide

/-- The index field of a command word names no record exactly when its two upper bits are not both zero (R76, R131). -/
theorem indexOperand_out_iff (cw : CmdWord) :
    (indexOperand cw < 0 ∨ 8 ≤ indexOperand cw) ↔ cw.extractLsb' 11 2 ≠ 0b00#2 := by
  have hfield : (cw.extractLsb' 8 5).toNat = cw.toNat / 256 % 32 := by
    rw [BitVec.extractLsb'_toNat, Nat.shiftRight_eq_div_pow]
  have hupper : (cw.extractLsb' 11 2).toNat = cw.toNat / 2048 % 4 := by
    rw [BitVec.extractLsb'_toNat, Nat.shiftRight_eq_div_pow]
  rw [indexOperand_eq_ite, Ne, ← BitVec.toNat_inj, hfield, hupper, BitVec.toNat_ofNat]
  split <;> omega

/-- Settles O20: by what a command can do, either it takes OutOfRange or it responds without an error; a command word is
out of range by its index field. -/
theorem outOfRangeExactlyOutsideTheEightRecords : Obligations.OutOfRangeExactlyOutsideTheEightRecords := by
  refine ⟨fun i s h => exec_eq_outOfRangeAnswer i s h, fun i s h0 h8 => ?_, fun cw => ?_⟩
  · obtain ⟨hout, -⟩ | ⟨-, b, r, hr, -, -, he⟩ := exec_cases s i
    · exact absurd ⟨h0, h8⟩ hout
    · exact ⟨_, r, _, he, hr, rfl, rfl, Bool.eq_false_iff.mpr fun hbit => hr ((encodeRsp_err_iff r).mp hbit), rfl⟩
  · rw [decode_idx]
    exact indexOperand_out_iff cw

/-! ## No sticky error, and the run's mark (R137) -/

/-- A command sets the mark exactly when its index names no record, and never clears it. -/
theorem exec_faulted_iff {i : Instr} {s t : State} (h : exec i s = .next t) :
    t.faulted = true ↔ s.faulted = true ∨ ¬ IndexOk i.idx := by
  obtain ⟨hout, he⟩ | ⟨hok, b, r, -, -, -, he⟩ := exec_cases s i <;>
    obtain rfl := Host.Outcome.next.inj (he.symm.trans h)
  · exact iff_of_true (outOfRange_faulted s) (.inr hout)
  · exact ⟨.inl, fun hor => hor.resolve_right (not_not_intro hok)⟩

theorem step_keeps_faulted {s t : State} (hs : s.faulted = true) (h : step s = .next t) : t.faulted = true := by
  obtain ⟨-, rfl⟩ | ⟨p, rest, -, ⟨-, rfl⟩ | ⟨-, rfl⟩ | ⟨cw, -, -, hx⟩⟩ := step_cases h
  · exact hs
  · exact hs
  · exact hs
  · exact (exec_faulted_iff hx).mpr (.inl hs)

/-- Settles O21: OutOfRange keeps the bytes, and the next command is answered from the bytes alone by
`exec_determined_by_block`. -/
theorem errorsDoNotStick : Obligations.ErrorsDoNotStick := by
  refine ⟨fun i s t hout h => ?_, fun s t => step_keeps_faulted⟩
  obtain rfl := Host.Outcome.next.inj ((exec_out hout s).symm.trans h)
  refine ⟨outOfRange_block s, outOfRange_faulted s, fun j => ?_⟩
  obtain ⟨b, r, e, hexec⟩ := exec_determined_by_block j s.block
  exact ⟨_, _, r, hexec s rfl, hexec _ (outOfRange_block s), rfl, rfl, rfl, rfl⟩

end Sys2Proof.Machine

/-! # The family of spec/70_reset_and_hazards.md: the reset event and the start of a run -/

namespace Sys2Proof.Machine

/-! ## Serving a reset, and a command before the first one (R155, R157) -/

theorem step_presentReset {s : State} {rest : List PortIn} (h : s.inputs = presentReset :: rest) :
    step s = .next ({ s with inputs := rest } : State).resetEvent :=
  step_of_inputs h

theorem serve_presentWord_unconstructed {s : State} (cw : CmdWord) (h : s.constructed = false) :
    serve (presentWord cw) s = .refused .beforeFirstReset :=
  if_neg (Bool.eq_false_iff.mp h)

/-- The bytes after a reset event are those of the state every run starts at (R155, R159). -/
theorem resetEvent_block_eq_reset (s : State) : s.resetEvent.block = State.reset.block := rfl

theorem resetEvent_record (s : State) (i : Fin 8) : s.resetEvent.block.record i = 0 := by
  rw [resetEvent_block_eq_reset, reset_record]

theorem resetEvent_flag (s : State) (i : Fin 8) (f : Field) : s.resetEvent.block.flag i f = false := by
  rw [resetEvent_block_eq_reset, reset_flag]

/-- A reset of a block fresh from power-up forgets the power-up bytes: the launch state, whatever they were. -/
theorem powerUp_resetEvent (bytes : Block) (events : List PortIn) :
    ({ State.powerUp bytes with inputs := events } : State).resetEvent = State.launch events := rfl

theorem assembleLine_reset : assembleLine "RESET".toList = .ok (some (none, presentReset)) := by decide

/-! ## The two statements -/

/-- Settles O2: the step is the reset event, whose bytes are those of `State.reset`. -/
theorem resetEventZeroesTheBlock : Obligations.ResetEventZeroesTheBlock := by
  refine ⟨fun s rest hin => ?_, rfl, rfl, assembleLine_reset⟩
  exact ⟨_, step_presentReset hin, rfl, rfl, rfl, resetEvent_record _, resetEvent_flag _, resetEvent_responses _⟩

/-- Settles O3: at power-up the mark of construction is unset, so a command is refused; a reset serves the launch state. -/
theorem commandBeforeFirstResetIsRefused : Obligations.CommandBeforeFirstResetIsRefused := by
  refine fun bytes cw rest => ⟨?_, ?_⟩
  · rw [step_of_inputs rfl]
    exact serve_presentWord_unconstructed cw (powerUp_constructed bytes)
  · rw [step_presentReset rfl, ← powerUp_resetEvent bytes]

end Sys2Proof.Machine

/-! # Command words: the round trips of encode and decode, and the bits that a command ignores -/

namespace Sys2Proof.Machine

/-! ## The fields of a canonical word (R73, R85) -/

theorem commandWord_indexField (op : BitVec 3) (idx : Int) (val : BitVec 8) :
    (commandWord op idx val).extractLsb' 8 5 = BitVec.ofInt 5 idx := by
  refine BitVec.eq_of_getLsbD_eq fun q hq => ?_
  interval_cases q <;> simp [commandWord]

theorem commandWord_valueField (op : BitVec 3) (idx : Int) (val : BitVec 8) :
    (commandWord op idx val).extractLsb' 0 8 = val := by
  refine BitVec.eq_of_getLsbD_eq fun q hq => ?_
  interval_cases q <;> simp [commandWord]

/-- What a command puts in the value field of its canonical word (R79, R85). -/
def operandField : Instr → BitVec 8
  | .set _ val => BitVec.ofInt 8 val
  | .setMine _ b => boolField b
  | .setRevealed _ b => boolField b
  | .setFlagged _ b => boolField b
  | .get _ => 0
  | .isMine _ => 0
  | .isRevealed _ => 0
  | .isFlagged _ => 0

theorem encodeWord_eq_commandWord (i : Instr) : ∃ op, encodeWord i = commandWord op i.idx (operandField i) := by
  cases i <;> exact ⟨_, rfl⟩

theorem encodeWord_indexField (i : Instr) : (encodeWord i).extractLsb' 8 5 = BitVec.ofInt 5 i.idx := by
  obtain ⟨op, h⟩ := encodeWord_eq_commandWord i
  rw [h, commandWord_indexField]

theorem encodeWord_valueField (i : Instr) : (encodeWord i).extractLsb' 0 8 = operandField i := by
  obtain ⟨op, h⟩ := encodeWord_eq_commandWord i
  rw [h, commandWord_valueField]

theorem encodeWord_and_opMask (i : Instr) : encodeWord i &&& 0xE000#16 = (opRow i).matchBits := by
  cases i with
  | get idx => exact Laws.RowBits.get idx
  | set idx val => exact Laws.RowBits.set idx val
  | isMine idx => exact Laws.RowBits.isMine idx
  | setMine idx b => exact Laws.RowBits.setMine idx b
  | isRevealed idx => exact Laws.RowBits.isRevealed idx
  | setRevealed idx b => exact Laws.RowBits.setRevealed idx b
  | isFlagged idx => exact Laws.RowBits.isFlagged idx
  | setFlagged idx b => exact Laws.RowBits.setFlagged idx b

/-! ## Decode of encode -/

theorem wf_iff (i : Instr) : i.wf = true ↔ indexFits i.idx = true ∧ i.valueOk = true :=
  Bool.and_eq_true_iff

theorem encode_eq_ok_iff {i : Instr} {cw : CmdWord} : encode i = .ok cw ↔ i.wf = true ∧ encodeWord i = cw := by
  rw [wf_iff, encode]
  split <;> rename_i hi
  · split <;> rename_i hv <;> simp [hi, hv]
  · simp [hi]

theorem indexOperand_encodeWord {i : Instr} (h : indexFits i.idx = true) : indexOperand (encodeWord i) = i.idx := by
  obtain ⟨hlo, hhi⟩ := (indexFits_iff _).mp h
  rw [indexOperand, encodeWord_indexField]
  exact BitVec.toInt_ofInt_eq_self (by decide) (by omega) (by omega)

theorem valueOperand_encodeWord_set (idx : Int) {val : Int} (h : valueFits val = true) :
    valueOperand (encodeWord (.set idx val)) = val := by
  obtain ⟨hlo, hhi⟩ := (valueFits_iff _).mp h
  rw [valueOperand, encodeWord_valueField, operandField, BitVec.toNat_ofInt]
  omega

theorem boolOperand_eq_valueField (cw : CmdWord) : boolOperand cw = (cw.extractLsb' 0 8).getLsbD 0 := by
  simp [boolOperand]

theorem operandField_fieldWriteInstr (f : Field) (idx : Int) (b : Bool) :
    operandField (fieldWriteInstr f idx b) = boolField b := by
  cases f <;> rfl

theorem operandField_fieldReadInstr (f : Field) (idx : Int) : operandField (fieldReadInstr f idx) = 0 := by
  cases f <;> rfl

theorem boolOperand_encodeWord_fieldWrite (f : Field) (idx : Int) (b : Bool) :
    boolOperand (encodeWord (fieldWriteInstr f idx b)) = b := by
  rw [boolOperand_eq_valueField, encodeWord_valueField, operandField_fieldWriteInstr]
  cases b <;> decide

theorem opRow_fieldReadInstr (f : Field) (idx : Int) : opRow (fieldReadInstr f idx) = opRow (fieldReadInstr f 0) := by
  cases f <;> rfl

theorem opRow_fieldWriteInstr (f : Field) (idx : Int) (b : Bool) :
    opRow (fieldWriteInstr f idx b) = opRow (fieldWriteInstr f 0 false) := by
  cases f <;> rfl

/-- The word of a command has its row's bits of `op`, and its fields give the operands back. -/
theorem decode_encodeWord {i : Instr} (h : i.wf = true) : decode (encodeWord i) = i := by
  obtain ⟨hi, hv⟩ := (wf_iff i).mp h
  have hidx := indexOperand_encodeWord hi
  have hop := encodeWord_and_opMask i
  cases i using instr_form_cases with
  | get idx => rw [decode_eq_get hop, hidx]; rfl
  | set idx val => rw [decode_eq_set hop, hidx, valueOperand_encodeWord_set idx hv]; rfl
  | fieldRead f idx =>
    rw [opRow_fieldReadInstr] at hop
    rw [decode_eq_fieldReadInstr hop, hidx, fieldReadInstr_idx]
  | fieldWrite f idx b =>
    rw [opRow_fieldWriteInstr] at hop
    rw [decode_eq_fieldWriteInstr hop, hidx, fieldWriteInstr_idx, boolOperand_encodeWord_fieldWrite]

/-- Settles O36: a well-formed command is encoded as its canonical word, which `decode_encodeWord` reads back. -/
theorem decodeOfEncodeIsTheCommand : Obligations.DecodeOfEncodeIsTheCommand := fun i h =>
  ⟨encodeWord i, encode_eq_ok_iff.mpr ⟨h, rfl⟩, decode_encodeWord h⟩

/-! ## Encode of decode -/

theorem valueOk_decode (cw : CmdWord) : (decode cw).valueOk = true := by
  obtain h | h | ⟨f, h⟩ | ⟨f, h⟩ := decode_form_cases cw <;> rw [h]
  · rfl
  · have := (cw.extractLsb' 0 8).isLt
    exact (valueFits_iff _).mpr ⟨Int.natCast_nonneg _, by rw [valueOperand]; omega⟩
  · cases f <;> rfl
  · cases f <;> rfl

theorem decode_wf (cw : CmdWord) : (decode cw).wf = true := by
  have := (cw.extractLsb' 8 5).isLt
  refine (wf_iff _).mpr ⟨?_, valueOk_decode cw⟩
  rw [decode_idx, indexFits_iff, indexOperand_eq_ite]
  split <;> omega

/-- A command word is its bits of `op`, its index field and its value field (R73). -/
theorem cmdWord_eq_of_fields {cw cw' : CmdWord} (hop : cw &&& 0xE000#16 = cw' &&& 0xE000#16)
    (hidx : cw.extractLsb' 8 5 = cw'.extractLsb' 8 5) (hval : cw.extractLsb' 0 8 = cw'.extractLsb' 0 8) :
    cw = cw' := by
  refine BitVec.eq_of_getLsbD_eq fun q hq => ?_
  rcases Nat.lt_or_ge q 8 with h | h
  · simpa [h] using congrArg (BitVec.getLsbD · q) hval
  rcases Nat.lt_or_ge q 13 with h' | h'
  · have := congrArg (BitVec.getLsbD · (q - 8)) hidx
    simpa [show q - 8 < 5 by omega, show 8 + (q - 8) = q by omega] using this
  · have := congrArg (BitVec.getLsbD · q) hop
    interval_cases q <;> simpa using this

/-- The canonical word of a decoded word differs from it in the value field at most. -/
theorem encodeWord_decode_eq_iff (cw : CmdWord) :
    encodeWord (decode cw) = cw ↔ operandField (decode cw) = cw.extractLsb' 0 8 := by
  rw [← encodeWord_valueField]
  refine ⟨fun h => by rw [h], cmdWord_eq_of_fields ?_ ?_⟩
  · rw [encodeWord_and_opMask, opRow_decode_matchBits]
  · rw [encodeWord_indexField, decode_idx, indexOperand, BitVec.ofInt_toInt]

theorem and_setWidth_valueField (cw : CmdWord) (m : BitVec 8) :
    cw &&& m.setWidth 16 = (cw.extractLsb' 0 8 &&& m).setWidth 16 := by
  refine BitVec.eq_of_getLsbD_eq fun q hq => ?_
  rcases Nat.lt_or_ge q 8 with h | h
  · simp [h, hq]
  · simp [BitVec.getLsbD_of_ge m q h]

/-- A mask on the value field finds nothing in the word exactly when it finds nothing in the field. -/
theorem and_setWidth_eq_zero_iff (cw : CmdWord) (m : BitVec 8) :
    cw &&& m.setWidth 16 = 0#16 ↔ cw.extractLsb' 0 8 &&& m = 0#8 := by
  rw [and_setWidth_valueField, ← BitVec.toNat_inj, BitVec.toNat_setWidth_of_le (by decide), ← BitVec.toNat_inj]
  rfl

theorem ofInt_valueOperand (cw : CmdWord) : BitVec.ofInt 8 (valueOperand cw) = cw.extractLsb' 0 8 := by
  rw [valueOperand, BitVec.ofInt_natCast, BitVec.ofNat_toNat, BitVec.setWidth_eq]

/-- The value field is zero where the ignored bits of a reading command are (R79). -/
theorem valueField_eq_zero_iff (cw : CmdWord) : 0 = cw.extractLsb' 0 8 ↔ cw &&& 0x00FF#16 = 0#16 := by
  rw [eq_comm]
  refine Iff.trans ?_ (and_setWidth_eq_zero_iff cw 0xFF#8).symm
  rw [show 0xFF#8 = BitVec.allOnes 8 from rfl, BitVec.and_allOnes]
  rfl

theorem boolField_bit_eq_iff : ∀ x : BitVec 8, boolField (x.getLsbD 0) = x ↔ x &&& 0xFE#8 = 0#8 := by decide

/-- The value field is a Boolean's where the ignored bits of a field write are zero (R78, R79). -/
theorem valueField_eq_boolField_iff (cw : CmdWord) :
    boolField (boolOperand cw) = cw.extractLsb' 0 8 ↔ cw &&& 0x00FE#16 = 0#16 := by
  rw [boolOperand_eq_valueField, boolField_bit_eq_iff]
  exact (and_setWidth_eq_zero_iff cw 0xFE#8).symm

/-- Settles O37: only the value field can differ, and what each form puts there says when it does. -/
theorem encodeOfDecodeIsTheCanonicalWord : Obligations.EncodeOfDecodeIsTheCanonicalWord := by
  refine fun cw => ⟨decode_wf cw, ?_⟩
  rw [encode_eq_ok_iff, and_iff_right (decode_wf cw), encodeWord_decode_eq_iff]
  obtain h | h | ⟨f, h⟩ | ⟨f, h⟩ := decode_form_cases cw <;> rw [h]
  · exact valueField_eq_zero_iff cw
  · exact iff_of_true (ofInt_valueOperand cw) trivial
  · rw [operandField_fieldReadInstr, valueField_eq_zero_iff]
    cases f <;> rfl
  · rw [operandField_fieldWriteInstr, valueField_eq_boolField_iff]
    cases f <;> rfl

/-! ## The ignored operand bits (R77 to R79) -/

/-- Bits that a mask leaves out do not change what is seen through it or through a part of it. -/
theorem xor_and_of_and_eq_zero {x k : CmdWord} (h : x &&& k = 0#16) (cw : CmdWord) {m : CmdWord}
    (hm : k &&& m = m) : (cw ^^^ x) &&& m = cw &&& m := by
  have hx : x &&& m = 0#16 := by rw [← hm, ← BitVec.and_assoc, h, BitVec.zero_and]
  refine BitVec.eq_of_getLsbD_eq fun q _ => ?_
  have hbit : (x.getLsbD q && m.getLsbD q) = false := by simpa using congrArg (BitVec.getLsbD · q) hx
  rw [BitVec.getLsbD_and, BitVec.getLsbD_xor, Bool.and_xor_distrib_right, hbit, Bool.xor_false, BitVec.getLsbD_and]

theorem getLsbD_eq_of_and_eq {cw cw' m : CmdWord} (h : cw &&& m = cw' &&& m) {q : Nat}
    (hq : m.getLsbD q = true) : cw.getLsbD q = cw'.getLsbD q := by
  simpa [hq] using congrArg (BitVec.getLsbD · q) h

theorem indexOperand_congr {cw cw' : CmdWord} (h : cw &&& 0x1F00#16 = cw' &&& 0x1F00#16) :
    indexOperand cw = indexOperand cw' := by
  have hfield : cw.extractLsb' 8 5 = cw'.extractLsb' 8 5 := by
    refine BitVec.eq_of_getLsbD_eq fun q hq => ?_
    have := getLsbD_eq_of_and_eq h (q := 8 + q) (by interval_cases q <;> rfl)
    simpa [hq] using this
  rw [indexOperand, hfield, indexOperand]

/-- Only CW[2:0] of the value operand counts (R75, R102). -/
theorem maskValue_valueOperand_congr {cw cw' : CmdWord} (h : cw &&& 0x0007#16 = cw' &&& 0x0007#16) :
    maskValue (valueOperand cw) = maskValue (valueOperand cw') := by
  rw [maskValue_valueOperand, maskValue_valueOperand]
  refine BitVec.eq_of_getLsbD_eq fun q hq => ?_
  have := getLsbD_eq_of_and_eq h (q := q) (by interval_cases q <;> rfl)
  simpa [hq] using this

section
variable {cw cw' : CmdWord}

theorem decode_congr_of_kind_ne_write (hk : (decode cw).kind ≠ .write)
    (hop : cw &&& 0xE000#16 = cw' &&& 0xE000#16) (hidx : indexOperand cw = indexOperand cw') :
    decode cw' = decode cw := by
  have hrow := (opRow_decode_matchBits cw).trans hop
  obtain h | h | ⟨f, h⟩ | ⟨f, h⟩ := decode_form_cases cw <;> rw [h] at hrow hk ⊢
  · rw [decode_eq_get hrow.symm, hidx]
  · exact absurd rfl hk
  · rw [opRow_fieldReadInstr] at hrow
    rw [decode_eq_fieldReadInstr hrow.symm, hidx]
  · cases f <;> exact absurd rfl hk

theorem exec_decode_set_congr {idx val : Int} (hset : decode cw = .set idx val)
    (hop : cw &&& 0xE000#16 = cw' &&& 0xE000#16) (hidx : indexOperand cw = indexOperand cw')
    (hval : maskValue (valueOperand cw) = maskValue (valueOperand cw')) (s : State) :
    exec (decode cw') s = exec (decode cw) s := by
  have hrow := (opRow_decode_matchBits cw).trans hop
  rw [hset] at hrow
  rw [decode_eq_set hrow.symm, decode_eq_set (hop.trans hrow.symm), ← hidx]
  exact exec_set_congr hval.symm s _

theorem decode_fieldWrite_congr {f : Field} {idx : Int} {b : Bool} (hf : decode cw = fieldWriteInstr f idx b)
    (hop : cw &&& 0xE000#16 = cw' &&& 0xE000#16) (hidx : indexOperand cw = indexOperand cw')
    (hb : boolOperand cw = boolOperand cw') : decode cw' = decode cw := by
  have hrow := (opRow_decode_matchBits cw).trans hop
  rw [hf, opRow_fieldWriteInstr] at hrow
  rw [decode_eq_fieldWriteInstr hrow.symm, decode_eq_fieldWriteInstr (hop.trans hrow.symm), hidx, hb]

end

theorem operandField_of_kind_ne_write {i : Instr} (h : i.kind ≠ .write) : operandField i = 0 := by
  cases i using instr_form_cases with
  | get idx => rfl
  | set idx val => exact absurd rfl h
  | fieldRead f idx => exact operandField_fieldReadInstr f idx
  | fieldWrite f idx b => cases f <;> exact absurd rfl h

/-- Settles O35: the words agree on every bit that the command's form reads, and the canonical value field of a read is
zero, that of a field write a Boolean's. -/
theorem ignoredOperandBitsHaveNoEffect : Obligations.IgnoredOperandBitsHaveNoEffect := by
  refine ⟨fun s cw x => ⟨fun hk hx => ?_, fun ⟨idx, val, hset⟩ hx => ?_, fun ⟨f, idx, b, hf⟩ hx => ?_⟩,
    fun i cw h => ?_⟩
  · have agree := fun m => xor_and_of_and_eq_zero hx cw (m := m)
    rw [decode_congr_of_kind_ne_write hk (agree _ (by decide)).symm (indexOperand_congr (agree _ (by decide)).symm)]
  · have agree := fun m => xor_and_of_and_eq_zero hx cw (m := m)
    exact exec_decode_set_congr hset (agree _ (by decide)).symm (indexOperand_congr (agree _ (by decide)).symm)
      (maskValue_valueOperand_congr (agree _ (by decide)).symm) s
  · have agree := fun m => xor_and_of_and_eq_zero hx cw (m := m)
    rw [decode_fieldWrite_congr hf (agree _ (by decide)).symm (indexOperand_congr (agree _ (by decide)).symm)
      (getLsbD_eq_of_and_eq (agree 0x0001#16 (by decide)).symm (by decide))]
  · obtain ⟨-, rfl⟩ := encode_eq_ok_iff.mp h
    refine ⟨fun hk => ?_, fun ⟨f, idx, b, hf⟩ => ?_⟩
    · rw [← valueField_eq_zero_iff, encodeWord_valueField, operandField_of_kind_ne_write hk]
    · rw [← valueField_eq_boolField_iff, hf, boolOperand_encodeWord_fieldWrite, encodeWord_valueField,
        operandField_fieldWriteInstr]

/-- Settles O32: each word is decoded by evaluation. -/
theorem decodesWrittenOutWords : Obligations.DecodesWrittenOutWords :=
  ⟨by decide, by decide, by decide, by decide, by decide, by decide, by decide, by decide⟩

end Sys2Proof.Machine

/-! # Events, responses and runs: what every step and every command keeps -/

namespace Sys2Proof.Machine

/-! ## The four events (R72) -/

theorem portEvent_eq_overlapping_iff {p : PortIn} : portEvent p = .overlapping ↔ p.rst = true ∧ p.cmdValid = true := by
  rcases p with ⟨_ | _, _ | _, cmd⟩ <;> simp [portEvent]

section
variable {p : PortIn} (s : State)

theorem serve_of_idle (h : portEvent p = .idle) : serve p s = .next s := by
  rw [serve, h]

theorem serve_of_reset (h : portEvent p = .reset) : serve p s = .next s.resetEvent := by
  rw [serve, h]

theorem serve_of_command {cw : CmdWord} (h : portEvent p = .command cw) : serve p s = serveInstr (decode cw) s := by
  rw [serve, h]
  rfl

theorem serve_of_overlapping (h : portEvent p = .overlapping) : serve p s = .refused .overlappingEvents := by
  rw [serve, h]

end

theorem serveInstr_of_constructed {s : State} (h : s.constructed = true) (i : Instr) : serveInstr i s = exec i s :=
  if_pos h

theorem step_of_no_inputs {s : State} (h : s.inputs = []) : step s = .next s := by
  rw [step, serveNext, h]

/-- Settles O41: the presented word is the next sample, and `withFetchWord` presents the word it is given. -/
theorem stepRunsTheDecodedCommand : Obligations.StepRunsTheDecodedCommand := by
  refine ⟨fun s cw rest hc hin => ?_, fun s cw => ?_⟩
  · rw [step_of_inputs hin]
    exact serve_presentWord cw hc
  · have hword : BitVec.ofNat 16 (cw.toNat % 2 ^ 16) = cw := by
      rw [Nat.mod_eq_of_lt cw.isLt, BitVec.ofNat_toNat, BitVec.setWidth_eq]
    rw [State.withFetchWord, hword, step_of_inputs (presentNext_inputs s cw)]
    exact serve_presentWord cw rfl

/-- Settles O42: by the event that the sample's two bits name. -/
theorem eventsWithoutACommand : Obligations.EventsWithoutACommand := by
  refine ⟨fun s => step_of_no_inputs, fun s p rest hin hr hv => ?_, fun s p rest hin hr hv => ?_⟩
  · rw [step_of_inputs hin, serve_of_idle _ (portEvent_eq_idle_iff.mpr ⟨hr, hv⟩)]
  · rw [step_of_inputs hin, serve_of_reset _ (portEvent_eq_reset_iff.mpr ⟨hr, hv⟩)]
    rfl

/-- Settles O43: the sample is the event that the discipline excludes. -/
theorem resetAndCommandNeverCoincide : Obligations.ResetAndCommandNeverCoincide := fun s cw rest hin => by
  rw [step_of_inputs hin, serve_of_overlapping _ (portEvent_eq_overlapping_iff.mpr ⟨rfl, rfl⟩)]

/-! ## The invariant (R16, R72, R137, R157) -/

/-- Settles O47: nothing was answered yet, and the block is constructed. -/
theorem invariantHoldsAtReset : Obligations.InvariantHoldsAtReset :=
  ⟨nofun, by decide, nofun⟩

theorem respond_portShowsLatest (s : State) (r : Response) : (s.respond r).PortShowsLatest := by
  intro w hw
  exact ⟨r, by simp, Option.some.inj hw⟩

theorem respond_markTellsErrors {s : State} (h : s.MarkTellsErrors) {r : Response} (hr : r ≠ .errOutOfRange) :
    (s.respond r).MarkTellsErrors := by
  simpa [State.MarkTellsErrors, hr.symm] using h

theorem outOfRange_markTellsErrors (s : State) : s.outOfRange.MarkTellsErrors := by
  simp [State.MarkTellsErrors]

theorem exec_constructed {i : Instr} {s t : State} (h : exec i s = .next t) : t.constructed = s.constructed := by
  obtain ⟨-, he⟩ | ⟨-, b, r, -, -, -, he⟩ := exec_cases s i <;>
    obtain rfl := Host.Outcome.next.inj (he.symm.trans h)
  · rfl
  · rfl

theorem exec_keeps_inv {i : Instr} {s t : State} (hs : s.Inv) (h : exec i s = .next t)
    (hc : s.constructed = true) : t.Inv := by
  obtain ⟨-, hmark, -⟩ := hs
  have hsilent : t.SilentBeforeReset := fun hf => by
    rw [exec_constructed h, hc] at hf
    cases hf
  obtain ⟨-, he⟩ | ⟨-, b, r, hr, -, -, he⟩ := exec_cases s i <;>
    obtain rfl := Host.Outcome.next.inj (he.symm.trans h)
  · exact ⟨respond_portShowsLatest s _, outOfRange_markTellsErrors s, hsilent⟩
  · exact ⟨respond_portShowsLatest _ r, respond_markTellsErrors (s := { s with block := b }) hmark hr, hsilent⟩

/-- A reset leaves no word on the port and sets the mark of construction, so only the run's mark is left to hold. -/
theorem resetEvent_keeps_inv {s : State} (hs : s.Inv) : s.resetEvent.Inv := by
  obtain ⟨-, hmark, -⟩ := hs
  exact ⟨nofun, hmark, nofun⟩

/-- Settles O48: by what a step can do; taking the sample touches none of the invariant's fields. -/
theorem everyStepKeepsTheInvariant : Obligations.EveryStepKeepsTheInvariant := by
  intro s t hs h
  obtain ⟨-, rfl⟩ | ⟨p, rest, -, hevent⟩ := step_cases h
  · exact hs
  have hrest : ({ s with inputs := rest } : State).Inv := hs
  obtain ⟨-, rfl⟩ | ⟨-, rfl⟩ | ⟨cw, -, hc, hx⟩ := hevent
  · exact hrest
  · exact resetEvent_keeps_inv hrest
  · exact exec_keeps_inv hrest hx hc

/-! ## What a command leaves unchanged, and what its answer depends on (R21) -/

/-- Settles O25: `exec_determined_by_block`, at the bytes that the two states share. -/
theorem responsesDependOnTheBytesAlone : Obligations.ResponsesDependOnTheBytesAlone := by
  intro i s s' hb
  obtain ⟨b, r, e, h⟩ := exec_determined_by_block i s.block
  exact ⟨b, r, e, h s rfl, h s' hb.symm⟩

/-- Settles O49: a command responds once and takes no sample; the mark is `exec_faulted_iff`. -/
theorem commandsLeaveTheHostSide : Obligations.CommandsLeaveTheHostSide := by
  intro i s t h
  obtain ⟨u, r, hu, hinputs, hresp, -, -⟩ := exec_responds_once i s
  obtain rfl := Host.Outcome.next.inj (hu.symm.trans h)
  exact ⟨hinputs, exec_constructed h, by simp [hresp], ⟨[r], hresp.symm⟩, exec_faulted_iff h⟩

/-! ## No fault (R36, R45, R164) -/

theorem exec_ne_fault (i : Instr) (s : State) (r : Fault) : exec i s ≠ .fault r := by
  obtain ⟨t, -, h, -⟩ := exec_responds_once i s
  rw [h]
  nofun

theorem serve_ne_fault (p : PortIn) (s : State) (r : Fault) : serve p s ≠ .fault r := by
  cases he : portEvent p with
  | idle => rw [serve_of_idle s he]; nofun
  | reset => rw [serve_of_reset s he]; nofun
  | overlapping => rw [serve_of_overlapping s he]; nofun
  | command cw =>
    rw [serve_of_command s he, serveInstr]
    split
    · exact exec_ne_fault _ s r
    · nofun

theorem step_ne_fault (s : State) (r : Fault) : step s ≠ .fault r := by
  cases hin : s.inputs with
  | nil => rw [step_of_no_inputs hin]; nofun
  | cons p rest => rw [step_of_inputs hin]; exact serve_ne_fault p _ r

theorem msg_secondary_isSome_iff (i : Fin 8) : (msg i).secondary.isSome = true ↔ (adec i).bitOffset > 5 := by
  by_cases h : (adec i).bitOffset > 5
  · simp [msg_secondary_eq_some h, h]
  · simp [msg_secondary_eq_none (Nat.not_lt.mp h), h]

/-- Settles O26: the secondary part is formed under its guard, and no event ends in a fault. -/
theorem noAccessLeavesTheThreeBytes : Obligations.NoAccessLeavesTheThreeBytes :=
  ⟨msg_secondary_isSome_iff, by decide, by decide, by decide, fun _ => rfl, exec_ne_fault, step_ne_fault⟩

/-! ## The response word by outcome (R81, R82) -/

theorem encodeRsp_toNat_le (r : Response) : (encodeRsp r).toNat ≤ 8 := by
  cases r with
  | okRec v => have := v.isLt; simp only [encodeRsp, BitVec.toNat_setWidth]; omega
  | okFlag v => cases v <;> decide
  | okUnit => decide
  | errOutOfRange => decide

/-- A response that is read back without an error says what kind of command it answers. -/
theorem kind_of_decodeRsp_eq {k : CmdKind} {rw : RspWord} {r : Response} (h : decodeRsp k rw = r) :
    match (generalizing := false) r with
    | .okRec v => k = .recordRead ∧ rw.getLsbD 3 = false ∧ rw.extractLsb' 0 3 = v
    | .okFlag _ => k = .fieldRead
    | .okUnit => k = .write
    | .errOutOfRange => True := by
  subst h
  cases herr : rw.getLsbD 3 with
  | true => simp [decodeRsp_of_err k herr]
  | false =>
    simp only [decodeRsp, herr, Bool.false_eq_true, if_false]
    cases k with
    | recordRead => exact ⟨rfl, trivial, rfl⟩
    | fieldRead => rfl
    | write => rfl

/-- Settles O40: the word reads back as the response, which fixes the command's kind. -/
theorem responseWordsByOutcome : Obligations.ResponseWordsByOutcome := by
  intro i s
  obtain ⟨t, r, he, -, hresp, hrsp, hback⟩ := exec_responds_once i s
  refine ⟨t, r, _, he, hresp, hrsp, encodeRsp_toNat_le r, ?_⟩
  have hkind := kind_of_decodeRsp_eq hback
  cases r with
  | okRec v => exact hkind
  | okFlag v => exact ⟨hkind, by cases v <;> rfl⟩
  | okUnit => exact ⟨hkind, rfl⟩
  | errOutOfRange => rfl

/-! ## Runs (R72, R166) -/

theorem commandCount_cons (p : PortIn) (rest : List PortIn) :
    commandCount (p :: rest) = commandCount [p] + commandCount rest := by
  rw [commandCount, commandCount, commandCount, ← List.length_append, ← List.filter_append, List.singleton_append]

theorem disciplined_cases {p : PortIn} (h : p.disciplined = true) :
    portEvent p = .idle ∨ portEvent p = .reset ∨ portEvent p = .command p.cmd := by
  rcases p with ⟨_ | _, _ | _, cmd⟩ <;> simp_all [portEvent, PortIn.disciplined]

/-- A disciplined sample on a constructed block is served, with one response for a command, and sets the mark exactly
for a command out of range. -/
theorem step_disciplined {s : State} {p : PortIn} {rest : List PortIn} (hc : s.constructed = true)
    (hin : s.inputs = p :: rest) (hp : p.disciplined = true) :
    ∃ t, step s = .next t ∧ t.constructed = true ∧ t.inputs = rest ∧
      t.responses.length = s.responses.length + commandCount [p] ∧
      (t.faulted = false ↔ s.faulted = false ∧ p.indexOk = true) := by
  rw [step_of_inputs hin]
  obtain he | he | he := disciplined_cases hp
  · obtain ⟨hr, hv⟩ := portEvent_eq_idle_iff.mp he
    exact ⟨_, serve_of_idle _ he, hc, rfl, by simp [commandCount, hv], by simp [PortIn.indexOk, hv]⟩
  · obtain ⟨hr, hv⟩ := portEvent_eq_reset_iff.mp he
    exact ⟨_, serve_of_reset _ he, rfl, rfl, by simp [commandCount, hv], by simp [PortIn.indexOk, hv]⟩
  · obtain ⟨hr, hv, -⟩ := portEvent_eq_command_iff.mp he
    rw [serve_of_command _ he, serveInstr_of_constructed (s := { s with inputs := rest }) hc]
    obtain ⟨t, r, hx, hinputs, hresp, -, -⟩ := exec_responds_once (decode p.cmd) { s with inputs := rest }
    refine ⟨t, hx, (exec_constructed hx).trans hc, hinputs, by simp [hresp, commandCount, hr, hv], ?_⟩
    rw [← Bool.not_eq_true, exec_faulted_iff hx]
    simp [PortIn.indexOk, hr, hv]

theorem run_succ_of_next {s t : State} (h : step s = .next t) (n : Nat) :
    Host.Core.run core (n + 1) s = Host.Core.run core n t := by
  have hcore : core.step s = .next t := h
  simp only [Host.Core.run, hcore]

/-- The run of disciplined samples, from any constructed block that waits for them. -/
theorem run_disciplined (events : List PortIn) (hev : ∀ p ∈ events, p.disciplined = true) {s : State}
    (hc : s.constructed = true) (hin : s.inputs = events) :
    ∃ t : State, Host.Core.run core events.length s = .next t ∧ t.inputs = [] ∧
      t.responses.length = s.responses.length + commandCount events ∧
      (t.faulted = false ↔ s.faulted = false ∧ ∀ p ∈ events, p.indexOk = true) := by
  induction events generalizing s with
  | nil => exact ⟨s, rfl, hin, rfl, by simp⟩
  | cons p rest ih =>
    obtain ⟨hp, hrest⟩ := List.forall_mem_cons.mp hev
    obtain ⟨t, ht, htc, htin, hlen, hmark⟩ := step_disciplined hc hin hp
    obtain ⟨u, hu, huin, hulen, humark⟩ := ih hrest htc htin
    refine ⟨u, (run_succ_of_next ht _).trans hu, huin, ?_, ?_⟩
    · rw [hulen, hlen, commandCount_cons p rest, Nat.add_assoc]
    · rw [humark, hmark, List.forall_mem_cons, and_assoc]

/-- Settles O46: `run_disciplined` from the launch state. -/
theorem disciplinedRunsComplete : Obligations.DisciplinedRunsComplete := by
  intro events hev
  obtain ⟨t, hrun, hin, hlen, hmark⟩ := run_disciplined events hev (launch_constructed events) (launch_inputs events)
  exact ⟨t, hrun, hin, by simpa using hlen, by simpa using hmark⟩

end Sys2Proof.Machine

/-! # Commands one after another: the round trips, the equivalences of writes, and what is reachable -/

namespace Sys2Proof.Machine

/-! ## The value of a record (R23, R24) -/

theorem rec_toNat_eq_flags : ∀ r : Rec, r.toNat =
    (recordFlag r .flagged).toNat * 4 + (recordFlag r .revealed).toNat * 2 + (recordFlag r .mine).toNat := by
  decide

/-- Settles O5: the answer of GET is the record, which two states can share whatever else they hold. -/
theorem getAnswersTheRecordAndNothingElse : Obligations.GetAnswersTheRecordAndNothingElse := by
  refine ⟨fun s i => ⟨_, _, exec_get_fin s i, rfl, rfl, ?_⟩, fun s s' i h => ?_⟩
  · simp only [flag_eq_recordFlag]
    exact rec_toNat_eq_flags _
  · exact ⟨_, _, exec_get_eq_readAnswer h, exec_get_eq_readAnswer rfl⟩

theorem record_toNat (b : Block) (i : Fin 8) : (b.record i).toNat = b.span.toNat / 8 ^ i.val % 8 := by
  rw [Block.record, BitVec.extractLsb'_toNat, Nat.shiftRight_eq_div_pow, Nat.pow_mul]

/-- Settles O30: the records are the digits of the 24-bit view in base 8. -/
theorem recordsDetermineTheSpan : Obligations.RecordsDetermineTheSpan := by
  intro b
  have hlt := b.span.isLt
  have digit : ∀ (i : Fin 8) (p : Nat), 8 ^ i.val = p → (b.record i).toNat = b.span.toNat / p % 8 := by
    rintro i p rfl
    exact record_toNat b i
  rw [digit 0 1 rfl, digit 1 8 rfl, digit 2 64 rfl, digit 3 512 rfl, digit 4 4096 rfl, digit 5 32768 rfl,
    digit 6 262144 rfl, digit 7 2097152 rfl]
  omega

/-! ## A write to one record or one flag (R52, R53, R103) -/

theorem setWidth_maskValue (val : Int) : (maskValue val).setWidth 24 = BitVec.ofNat 24 (val % 8).toNat := by
  rw [maskValue_eq_ofNat]
  refine BitVec.eq_of_toNat_eq ?_
  rw [BitVec.toNat_setWidth, BitVec.toNat_ofNat, BitVec.toNat_ofNat]
  omega

/-- Settles O8: the 24-bit view of the rewritten block is the formula that defines it. -/
theorem setRewritesOneRecordOfTheSpan : Obligations.SetRewritesOneRecordOfTheSpan := by
  refine fun s i val => ⟨_, exec_set_fin s i val, ?_, fun j => ?_⟩
  · rw [respond_block, Block.withRecord, span_ofSpan, setWidth_maskValue]
  · rw [respond_block, record_withRecord, maskValue_eq_ofNat]

theorem withRecord_withRecord_same (b : Block) (i : Fin 8) (v w : Rec) :
    (b.withRecord i v).withRecord i w = b.withRecord i w :=
  block_eq_of_records fun j => by
    simp only [record_withRecord]
    split <;> rfl

theorem withFlag_withFlag_same (b : Block) (i : Fin 8) (f : Field) (v w : Bool) :
    (b.withFlag i f v).withFlag i f w = b.withFlag i f w :=
  block_eq_of_flags fun j g => by
    simp only [flag_withFlag]
    split <;> rfl

theorem withRecord_comm (b : Block) {i j : Fin 8} (h : i ≠ j) (v w : Rec) :
    (b.withRecord i v).withRecord j w = (b.withRecord j w).withRecord i v :=
  block_eq_of_records fun k => by
    simp only [record_withRecord]
    by_cases hi : k = i
    · subst hi
      simp [h]
    · rw [if_neg hi, if_neg hi]

theorem withFlag_comm (b : Block) {i j : Fin 8} {f g : Field} (h : (i, f) ≠ (j, g)) (v w : Bool) :
    (b.withFlag i f v).withFlag j g w = (b.withFlag j g w).withFlag i f v :=
  block_eq_of_flags fun k e => by
    simp only [flag_withFlag]
    by_cases hi : k = i ∧ e = f
    · obtain ⟨rfl, rfl⟩ := hi
      simpa using fun hj hg => absurd (Prod.ext hj hg) h
    · rw [if_neg hi, if_neg hi]

theorem recordFlag_merged (r : Rec) (f g : Field) (v : Bool) :
    recordFlag ((r &&& ~~~(1#3 <<< fieldOffset f)) ||| ((BitVec.ofBool v).setWidth 3 <<< fieldOffset f)) g =
      if g = f then v else recordFlag r g := by
  revert r
  cases f <;> cases g <;> cases v <;> decide

/-- A flag write is a write of its record with the one bit changed. -/
theorem withFlag_eq_withRecord (b : Block) (i : Fin 8) (f : Field) (v : Bool) :
    b.withFlag i f v = b.withRecord i ((b.record i &&& ~~~(1#3 <<< fieldOffset f)) |||
      ((BitVec.ofBool v).setWidth 3 <<< fieldOffset f)) :=
  block_eq_of_flags fun j g => by
    rw [flag_withFlag, flag_withRecord, recordFlag_merged]
    by_cases hj : j = i
    · subst hj
      simp [flag_eq_recordFlag]
    · simp [hj]

/-! ## Two commands: round trips and equivalences (R59, R108, R121 to R123, R127) -/

/-- Settles O14: the read finds the flag that the write put there. -/
theorem fieldWriteThenReadReturnsTheFlag : Obligations.FieldWriteThenReadReturnsTheFlag := fun s i f v =>
  ⟨_, _, exec_fieldWrite_fin s i f v, exec_fieldRead_fin _ i f, by simp [flag_withFlag]⟩

/-- Settles O17: in range the flag is the record's bit; out of range both commands take OutOfRange. -/
theorem fieldReadIsGetAndBitTest : Obligations.FieldReadIsGetAndBitTest := by
  intro s t idx f r h hresp
  by_cases hok : IndexOk idx
  · obtain ⟨i, -, rfl⟩ := inRange_of_ok hok
    obtain rfl := Host.Outcome.next.inj ((exec_get_fin s i).symm.trans h)
    obtain rfl : Response.okRec (s.block.record i) = r := by simpa using hresp
    refine ⟨_, exec_fieldRead_fin s i f, rfl, ?_⟩
    rw [respond_responses, flag_eq_recordFlag, recordFlag_eq_maskTest]
  · obtain rfl := Host.Outcome.next.inj ((exec_out (i := .get idx) hok s).symm.trans h)
    obtain rfl : Response.errOutOfRange = r := by simpa using hresp
    exact ⟨_, exec_out (by rwa [fieldReadInstr_idx]) s, rfl, rfl⟩

/-- Settles O18: the two commands answer alike, and their new bytes are those of `withFlag_eq_withRecord`. -/
theorem fieldWriteIsSetOfTheChangedRecord : Obligations.FieldWriteIsSetOfTheChangedRecord := by
  intro s i f v
  rw [exec_fieldWrite_fin, exec_set_fin, maskValue_rec_toNat, withFlag_eq_withRecord]

/-- The answer of two writes that left the bytes `b` and then `c`: the bytes `b` leave no trace. -/
theorem execAll_two_writes {i j : Instr} {s : State} {b c : Block} (hi : exec i s = writeAnswer s b)
    (hj : exec j ({ s with block := b }.respond .okUnit) =
      .next ({ { s with block := b }.respond .okUnit with block := c }.respond .okUnit)) :
    execAll [i, j] s = .next (({ s with block := c }.respond .okUnit).respond .okUnit) := by
  exact (execAll_cons_of_next hi [j]).trans (execAll_cons_of_next hj [])

/-- Settles O19: both orders leave the bytes that the two writes of the views commute to, and respond alike. -/
theorem writesToDifferentBitsCommute : Obligations.WritesToDifferentBitsCommute := by
  refine ⟨fun s i j v w h => ⟨_, execAll_two_writes (exec_set_fin s i v) (exec_set_fin _ j w), ?_⟩,
    fun s i j f g v w h => ⟨_, execAll_two_writes (exec_fieldWrite_fin s i f v) (exec_fieldWrite_fin _ j g w), ?_⟩⟩
  · rw [execAll_two_writes (exec_set_fin s j w) (exec_set_fin _ i v)]
    simp only [respond_block, withRecord_comm s.block h]
  · rw [execAll_two_writes (exec_fieldWrite_fin s j g w) (exec_fieldWrite_fin _ i f v)]
    simp only [respond_block, withFlag_comm s.block h]

/-- Settles O23: in range the second write finds its value already there; out of range neither writes. -/
theorem writesAreIdempotent : Obligations.WritesAreIdempotent := by
  intro i s hw
  by_cases hok : IndexOk i.idx
  · obtain ⟨n, -, hn⟩ := inRange_of_ok hok
    cases i using instr_form_cases with
    | get idx => cases hw
    | fieldRead f idx => cases f <;> cases hw
    | set idx val =>
      obtain rfl : idx = n.val := hn
      exact ⟨_, _, exec_set_fin s n val, exec_set_fin _ n val, withRecord_withRecord_same _ _ _ _⟩
    | fieldWrite f idx v =>
      obtain rfl : idx = n.val := by simpa using hn
      exact ⟨_, _, exec_fieldWrite_fin s n f v, exec_fieldWrite_fin _ n f v, withFlag_withFlag_same _ _ _ _ _⟩
  · exact ⟨_, _, exec_out hok s, exec_out hok _, rfl⟩

/-! ## Lists of commands (R61, R108) -/

theorem execAll_append_of_next {as : List Instr} {s t : State} (h : execAll as s = .next t) (bs : List Instr) :
    execAll (as ++ bs) s = execAll bs t := by
  induction as generalizing s with
  | nil => rw [List.nil_append, ← Host.Outcome.next.inj h]
  | cons a as ih =>
    obtain ⟨u, -, hu, -⟩ := exec_responds_once a s
    rw [execAll_cons_of_next hu] at h
    rw [List.cons_append, execAll_cons_of_next hu, ih h]

/-- A command on another index changes no flag of a record, so not the record (R26, R105, R124). -/
theorem exec_keeps_record {c : Instr} {s t : State} {i : Fin 8} (hc : c.idx ≠ i.val) (h : exec c s = .next t) :
    t.block.record i = s.block.record i := by
  refine rec_eq_of_flags fun f => ?_
  rw [← flag_eq_recordFlag, ← flag_eq_recordFlag]
  by_contra hne
  obtain ⟨val, rfl⟩ | rfl := exec_flag_changed h hne
  · exact hc rfl
  · exact hc (fieldWriteInstr_idx _ _ _)

/-- Commands on other indices complete and keep a record. -/
theorem execAll_keeps_record {i : Fin 8} {cmds : List Instr} (h : ∀ c ∈ cmds, c.idx ≠ i.val) (s : State) :
    ∃ t, execAll cmds s = .next t ∧ t.block.record i = s.block.record i := by
  induction cmds generalizing s with
  | nil => exact ⟨s, rfl, rfl⟩
  | cons c cs ih =>
    obtain ⟨hc, hcs⟩ := List.forall_mem_cons.mp h
    obtain ⟨t, -, ht, -⟩ := exec_responds_once c s
    obtain ⟨u, hu, hrec⟩ := ih hcs t
    exact ⟨u, (execAll_cons_of_next ht cs).trans hu, hrec.trans (exec_keeps_record hc ht)⟩

/-- Settles O10: the commands between keep the record that SET wrote. -/
theorem setThenGetReturnsTheValue : Obligations.SetThenGetReturnsTheValue := by
  intro s i v others hothers
  have hset := exec_set_fin s i v.toNat
  rw [maskValue_rec_toNat] at hset
  obtain ⟨t, ht, hrec⟩ := execAll_keeps_record hothers ({ s with block := s.block.withRecord i v }.respond .okUnit)
  rw [respond_block, record_withRecord, if_pos rfl] at hrec
  have hget : exec (.get i.val) t = .next (t.respond (.okRec v)) := by rw [exec_get_fin, hrec]
  refine ⟨t.respond (.okRec v), ?_, by simp, rfl⟩
  rw [execAll_append_of_next ((execAll_cons_of_next hset others).trans ht)]
  exact execAll_cons_of_next hget []

/-! ## The field writes of a record, in any order (R126) -/

/-- Field writes that write the flags of one record value: the flags they name become that value's. -/
theorem execAll_fieldWrites {i : Fin 8} {p : Rec} {writes : List Instr}
    (h : ∀ c ∈ writes, ∃ f, c = fieldWriteInstr f i.val (recordFlag p f)) (s : State) :
    ∃ t, execAll writes s = .next t ∧ ∀ j g, t.block.flag j g =
      if j = i ∧ fieldWriteInstr g i.val (recordFlag p g) ∈ writes then recordFlag p g else s.block.flag j g := by
  induction writes generalizing s with
  | nil => exact ⟨s, rfl, by simp⟩
  | cons c cs ih =>
    obtain ⟨⟨f, rfl⟩, hcs⟩ := List.forall_mem_cons.mp h
    obtain ⟨t, ht, hflags⟩ := ih hcs ({ s with block := s.block.withFlag i f (recordFlag p f) }.respond .okUnit)
    refine ⟨t, (execAll_cons_of_next (exec_fieldWrite_fin s i f _) cs).trans ht, fun j g => ?_⟩
    have hmem : fieldWriteInstr g i.val (recordFlag p g) = fieldWriteInstr f i.val (recordFlag p f) ↔ g = f :=
      ⟨fun e => (fieldWriteInstr_inj e).1, fun e => by rw [e]⟩
    simp only [hflags, respond_block, flag_withFlag, List.mem_cons, hmem]
    by_cases hj : j = i <;> by_cases hg : g = f <;> simp [hj, hg]

/-- If each flag is among the writes, or has its value already, the record is written whole. -/
theorem execAll_fieldWrites_eq_withRecord {i : Fin 8} {p : Rec} {writes : List Instr} {s : State}
    (h : ∀ c ∈ writes, ∃ f, c = fieldWriteInstr f i.val (recordFlag p f))
    (hall : ∀ f, fieldWriteInstr f i.val (recordFlag p f) ∈ writes ∨ recordFlag p f = s.block.flag i f) :
    ∃ t, execAll writes s = .next t ∧ t.block = s.block.withRecord i p := by
  obtain ⟨t, ht, hflags⟩ := execAll_fieldWrites h s
  refine ⟨t, ht, block_eq_of_flags fun j g => ?_⟩
  rw [hflags, flag_withRecord]
  by_cases hj : j = i
  · subst hj
    obtain hm | hv := hall g
    · simp [hm]
    · simp [hv]
  · simp [hj]

/-- The field writes of the flags that are true in a record value. -/
def trueFlagWrites (p : Rec) (idx : Int) : List Instr :=
  [Field.mine, .revealed, .flagged].filterMap fun f =>
    if recordFlag p f then some (fieldWriteInstr f idx true) else none

theorem mem_fields (f : Field) : f ∈ [Field.mine, .revealed, .flagged] := by
  cases f <;> decide

theorem mem_trueFlagWrites_iff {p : Rec} {idx : Int} {c : Instr} :
    c ∈ trueFlagWrites p idx ↔ ∃ f, recordFlag p f = true ∧ fieldWriteInstr f idx true = c := by
  simp only [trueFlagWrites, List.mem_filterMap, mem_fields, true_and, Option.ite_none_right_eq_some,
    Option.some.injEq]

section
variable (m r g : Bool)

theorem recordFlag_packFlags_mine : recordFlag (packFlags m r g) .mine = m := by
  revert m r g; decide

theorem recordFlag_packFlags_revealed : recordFlag (packFlags m r g) .revealed = r := by
  revert m r g; decide

theorem recordFlag_packFlags_flagged : recordFlag (packFlags m r g) .flagged = g := by
  revert m r g; decide

theorem maskValue_packed : maskValue (g.toNat * 4 + r.toNat * 2 + m.toNat : Nat) = packFlags m r g := by
  revert m r g; decide

theorem encodeRsp_packFlags :
    encodeRsp (.okRec (packFlags m r g)) = BitVec.ofNat 4 (g.toNat * 4 + r.toNat * 2 + m.toNat) := by
  revert m r g; decide

theorem fieldWrites_eq_map_packFlags (idx : Int) : [Instr.setMine idx m, .setRevealed idx r, .setFlagged idx g] =
    [Field.mine, .revealed, .flagged].map fun f => fieldWriteInstr f idx (recordFlag (packFlags m r g) f) := by
  simp [fieldWriteInstr, recordFlag_packFlags_mine, recordFlag_packFlags_revealed, recordFlag_packFlags_flagged]

theorem filterMap_eq_trueFlagWrites (idx : Int) :
    ([(m, Field.mine), (r, .revealed), (g, .flagged)].filterMap fun x =>
      if x.1 then some (fieldWriteInstr x.2 idx true) else none) = trueFlagWrites (packFlags m r g) idx := by
  simp [trueFlagWrites, List.filterMap_cons, recordFlag_packFlags_mine, recordFlag_packFlags_revealed,
    recordFlag_packFlags_flagged]

end

/-- The three field writes of a record value, in any order, write the record. -/
theorem execAll_perm_fieldWrites {i : Fin 8} {p : Rec} {writes : List Instr} (h : writes.Perm
    ([Field.mine, .revealed, .flagged].map fun f => fieldWriteInstr f i.val (recordFlag p f))) (s : State) :
    ∃ t, execAll writes s = .next t ∧ t.block = s.block.withRecord i p := by
  refine execAll_fieldWrites_eq_withRecord (fun c hc => ?_) fun f => .inl ?_
  · obtain ⟨f, -, hf⟩ := List.mem_map.mp (h.mem_iff.mp hc)
    exact ⟨f, hf.symm⟩
  · exact h.mem_iff.mpr (List.mem_map_of_mem (mem_fields f))

/-- Where the record's flags are all false, the writes of the true flags write the record. -/
theorem execAll_trueFlagWrites {i : Fin 8} {s : State} (hzero : ∀ f, s.block.flag i f = false) (p : Rec) :
    ∃ t, execAll (trueFlagWrites p i.val) s = .next t ∧ t.block = s.block.withRecord i p := by
  refine execAll_fieldWrites_eq_withRecord (fun c hc => ?_) fun f => ?_
  · obtain ⟨f, hf, hc⟩ := mem_trueFlagWrites_iff.mp hc
    exact ⟨f, by rw [hf, hc]⟩
  · cases hf : recordFlag p f with
    | false => exact .inr (hzero f).symm
    | true => exact .inl (mem_trueFlagWrites_iff.mpr ⟨f, hf, rfl⟩)

/-- Settles O16: both lists of field writes write the record whose flags they name, as SET of its packed value does. -/
theorem threeFieldWritesEqualOneSet : Obligations.ThreeFieldWritesEqualOneSet := by
  refine ⟨fun s i m r g writes hperm => ?_, fun s i m r g hzero => ?_⟩
  · rw [fieldWrites_eq_map_packFlags] at hperm
    obtain ⟨t, ht, hblock⟩ := execAll_perm_fieldWrites hperm s
    refine ⟨t, _, _, ht, exec_set_fin s i _, ?_, exec_get_fin t i, ?_⟩
    · rw [respond_block, maskValue_packed, hblock]
    · rw [respond_rsp, hblock, record_withRecord, if_pos rfl, encodeRsp_packFlags]
  · have hflags : ∀ f, s.block.flag i f = false := fun f => by rw [hzero]; exact reset_flag i f
    obtain ⟨t, ht, hblock⟩ := execAll_trueFlagWrites hflags (packFlags m r g)
    rw [filterMap_eq_trueFlagWrites]
    exact ⟨t, _, ht, exec_set_fin s i _, by rw [respond_block, maskValue_packed, hblock]⟩

/-! ## Every block is reachable (R25) -/

/-- SETs of the records of `b`, each with the record's own value. -/
def setRecords (b : Block) (is : List (Fin 8)) : List Instr := is.map fun i => .set i.val (b.record i).toNat

theorem execAll_setRecords (b : Block) (is : List (Fin 8)) (s : State) :
    ∃ t, execAll (setRecords b is) s = .next t ∧
      ∀ j, t.block.record j = if j ∈ is then b.record j else s.block.record j := by
  induction is generalizing s with
  | nil => exact ⟨s, rfl, by simp⟩
  | cons i is ih =>
    have hset := exec_set_fin s i (b.record i).toNat
    rw [maskValue_rec_toNat] at hset
    obtain ⟨t, ht, hrec⟩ := ih ({ s with block := s.block.withRecord i (b.record i) }.respond .okUnit)
    refine ⟨t, (execAll_cons_of_next hset _).trans ht, fun j => ?_⟩
    simp only [hrec, respond_block, record_withRecord, List.mem_cons]
    by_cases hj : j = i <;> simp [hj]

/-- Settles O31: eight SETs, one for each record. -/
theorem everyBlockStateIsReachable : Obligations.EveryBlockStateIsReachable := by
  intro b
  obtain ⟨t, ht, hrec⟩ := execAll_setRecords b (List.finRange 8) State.reset
  refine ⟨setRecords b (List.finRange 8), by simp [setRecords], fun c hc => ?_, t, ht, ?_⟩
  · obtain ⟨i, -, rfl⟩ := List.mem_map.mp hc
    exact ⟨i, _, rfl⟩
  · exact block_eq_of_records fun j => by rw [hrec, if_pos (List.mem_finRange j)]

end Sys2Proof.Machine

/-! # The array of blocks: a cell's block, its access, and the other blocks -/

namespace Sys2Proof.Machine

/-! ## The mapping (R64, R89) -/

theorem localIndex_lt (g : Nat) : localIndex g < 8 := Nat.mod_lt _ (by decide)

theorem blockIndex_localIndex (g : Nat) : 8 * blockIndex g + localIndex g = g := Nat.div_add_mod g 8

theorem withIndex_idx (i : Instr) (idx : Int) : (Instr.withIndex i idx).idx = idx := by
  cases i <;> rfl

theorem indexOk_localIndex (g : Nat) : IndexOk (localIndex g) := by
  have := localIndex_lt g
  exact ⟨by omega, by omega⟩

/-- In range a command is answered without an error and leaves the mark. -/
theorem exec_in_range {i : Instr} (hok : IndexOk i.idx) (s : State) :
    ∃ t r, exec i s = .next t ∧ t.responses = s.responses ++ [r] ∧ r ≠ .errOutOfRange ∧ t.faulted = s.faulted := by
  obtain ⟨hout, -⟩ | ⟨-, b, r, hr, -, -, he⟩ := exec_cases s i
  · exact absurd hok hout
  · exact ⟨_, r, he, rfl, hr, rfl⟩

theorem access_of_lt {bd : Board} {g : Nat} (h : g < bd.params.totalCells) (i : Instr) :
    bd.access g i = bd.update (blockIndex g) (serveInstr (Instr.withIndex i (localIndex g))) :=
  if_pos h

/-- Settles O51: the local index of a cell names a record, so its block answers without an error. -/
theorem routedAccessIsInRange : Obligations.RoutedAccessIsInRange := by
  intro bd g i s hg hs hc
  refine ⟨blockIndex_localIndex g, localIndex_lt g, ?_⟩
  have hok : IndexOk (Instr.withIndex i (localIndex g)).idx := by
    rw [withIndex_idx]
    exact indexOk_localIndex g
  obtain ⟨t, r, ht, hresp, hr, hmark⟩ := exec_in_range hok s
  refine ⟨_, t, r, ?_, setBlock_params bd _ t, setBlock_blocks bd _ t, ht, hresp, hr, hmark⟩
  rw [access_of_lt hg]
  exact update_of_block bd _ hs ((serveInstr_of_constructed hc _).trans ht)

/-! ## The host's parameters (R9, R65) -/

/-- 30 bits do not number 1.5 billion cells. -/
theorem gidxW_ge_of_large (p : Config.HostParams) (h : 1500000000 ≤ p.totalCells) : 31 ≤ p.gidxW := by
  by_contra hw
  have hpow : 2 ^ p.gidxW ≤ 2 ^ 30 := Nat.pow_le_pow_right (by decide) (by omega)
  have hfits := p.fits
  omega

theorem exists_block_of_lt {bd : Board} {g : Nat} (h : g < bd.params.totalCells) :
    ∃ s, bd.blocks[blockIndex g]? = some s := by
  have hlt : blockIndex g < bd.blocks.length := bd.sized ▸ blockIndex_lt_nBlocks h
  exact ⟨_, List.getElem?_eq_getElem hlt⟩

theorem exists_gidxWord_of_lt {p : Config.HostParams} {g : Nat} (h : g < p.totalCells) :
    ∃ w : BitVec p.gidxW, w.toNat = g :=
  ⟨BitVec.ofNat _ g, by rw [BitVec.toNat_ofNat, Nat.mod_eq_of_lt (h.trans_le p.fits)]⟩

theorem update_of_no_block {bd : Board} {k : Nat} (h : bd.blocks[k]? = none) (event : State → Result) :
    bd.update k event = .refused (.noSuchBlock k) := by
  rw [Board.update, h]

/-- Settles O52: the parameters and an array carry their constraints by their types, so a cell's index fits its word and
a cell's block is there. -/
theorem globalIndicesFitTheirWidth : Obligations.GlobalIndicesFitTheirWidth := by
  refine ⟨fun p => ⟨p.fits, gidxW_ge_of_large p⟩, fun bd g hg => ⟨exists_block_of_lt hg, ?_⟩, fun bd g i hg => ?_,
    fun bd k p hk => ?_, fun bd => bd.sized⟩
  · obtain ⟨w, hw⟩ := exists_gidxWord_of_lt hg
    exact ⟨w, hw, fun i => by rw [Board.accessWord, hw]⟩
  · exact if_neg (Nat.not_lt.mpr hg)
  · exact update_of_no_block (List.getElem?_eq_none (bd.sized ▸ hk)) _

/-! ## Independence (R33, R67) -/

theorem setBlock_getElem?_self {bd : Board} {k : Nat} {s : State} (h : bd.blocks[k]? = some s) (t : State) :
    (bd.setBlock k t).blocks[k]? = some t := by
  obtain ⟨hlt, -⟩ := List.getElem?_eq_some_iff.mp h
  rw [setBlock_blocks, List.getElem?_set_self hlt]

/-- Settles O53: an event that gives a next array is the one block's own, and is set there alone. -/
theorem blocksAreIndependent : Obligations.BlocksAreIndependent := by
  intro bd bd' k p h
  obtain ⟨s, t, hs, ht, rfl⟩ := update_cases bd k h
  refine ⟨rfl, by simp, fun j hj => ?_, fun other hother => ?_⟩
  · rw [setBlock_blocks, List.getElem?_set_ne hj.symm]
  · have hos := hother.trans hs
    exact ⟨_, update_of_block other k hos ht, by rw [setBlock_getElem?_self hos, setBlock_getElem?_self hs]⟩

end Sys2Proof.Machine
